-- ==== Sys2Proof/Word.lean ====
section
/-! DEFINITION. The words of the qchip8 CORE: the widths of 00_scope.md rule R8, and nothing else. -/

namespace Sys2Proof

/-- A byte: a memory cell, a general register, a timer, an immediate `nn` (rules R20, R29, R60, R91). -/
abbrev Byte := BitVec 8

/-- A 16-bit word: an instruction word, `pc`, `I`, a stack entry (rules R24, R25, R27, R90). -/
abbrev Word := BitVec 16

/-- A 12-bit address field `nnn` of an instruction (rule R91). -/
abbrev Addr := BitVec 12

/-- The number of a general register, `V0` to `VF` (rules R20, R21: every 4-bit index names a register). -/
abbrev Reg := Fin 16

/-- The number of a logical key, 0x0 to 0xF (rule R31). -/
abbrev Key := Fin 16

/-- The number of a framebuffer cell, 0 to 2047 (rule R30). -/
abbrev FbCell := Fin 2048

end Sys2Proof
end

