-- ==== Sys2Proof/Syntax.lean ====
section
/-! DEFINITION. The instructions of the qchip8 CORE: one constructor per row of spec/opcode_table.json
(30_encoding.md rule R96), with the operand fields its pattern names (rules R91, R93). -/

namespace Sys2Proof

/-- The 35 instructions.  Each docstring gives the pattern and the rule of its meaning. -/
inductive Instr where
  /-- `00E0`, CLS: clear the framebuffer (R120). -/
  | cls
  /-- `00EE`, RET: return from a subroutine (R140). -/
  | ret
  /-- `0nnn` other than `00E0` and `00EE`, SYS nnn (R141). -/
  | sys (nnn : Addr)
  /-- `1nnn`, JP nnn (R142). -/
  | jp (nnn : Addr)
  /-- `2nnn`, CALL nnn (R143). -/
  | call (nnn : Addr)
  /-- `3xnn`, SE Vx, nn (R160). -/
  | seImm (x : Reg) (nn : Byte)
  /-- `4xnn`, SNE Vx, nn (R161). -/
  | sneImm (x : Reg) (nn : Byte)
  /-- `5xy0`, SE Vx, Vy (R162). -/
  | seReg (x y : Reg)
  /-- `6xnn`, LD Vx, nn (R180). -/
  | ldImm (x : Reg) (nn : Byte)
  /-- `7xnn`, ADD Vx, nn (R181). -/
  | addImm (x : Reg) (nn : Byte)
  /-- `8xy0`, LD Vx, Vy (R183). -/
  | ldReg (x y : Reg)
  /-- `8xy1`, OR Vx, Vy (R184). -/
  | orReg (x y : Reg)
  /-- `8xy2`, AND Vx, Vy (R185). -/
  | andReg (x y : Reg)
  /-- `8xy3`, XOR Vx, Vy (R186). -/
  | xorReg (x y : Reg)
  /-- `8xy4`, ADD Vx, Vy (R187). -/
  | addReg (x y : Reg)
  /-- `8xy5`, SUB Vx, Vy (R188). -/
  | subReg (x y : Reg)
  /-- `8xy6`, SHR Vx; the `y` field is kept, its value plays no part (R189). -/
  | shr (x y : Reg)
  /-- `8xy7`, SUBN Vx, Vy (R190). -/
  | subnReg (x y : Reg)
  /-- `8xyE`, SHL Vx; the `y` field is kept, its value plays no part (R191). -/
  | shl (x y : Reg)
  /-- `9xy0`, SNE Vx, Vy (R163). -/
  | sneReg (x y : Reg)
  /-- `Annn`, LD I, nnn (R210). -/
  | ldI (nnn : Addr)
  /-- `Bnnn`, JP V0, nnn (R144). -/
  | jpV0 (nnn : Addr)
  /-- `Cxnn`, RND Vx, nn (R192). -/
  | rnd (x : Reg) (nn : Byte)
  /-- `Dxyn`, DRW Vx, Vy, n; `n` is a count of rows, 0 to 15 (R122). -/
  | drw (x y : Reg) (n : Fin 16)
  /-- `Ex9E`, SKP Vx (R231). -/
  | skp (x : Reg)
  /-- `ExA1`, SKNP Vx (R232). -/
  | sknp (x : Reg)
  /-- `Fx07`, LD Vx, DT (R234). -/
  | ldVxDt (x : Reg)
  /-- `Fx0A`, LD Vx, K (R233). -/
  | ldVxK (x : Reg)
  /-- `Fx15`, LD DT, Vx (R235). -/
  | ldDtVx (x : Reg)
  /-- `Fx18`, LD ST, Vx (R236). -/
  | ldStVx (x : Reg)
  /-- `Fx1E`, ADD I, Vx (R211). -/
  | addI (x : Reg)
  /-- `Fx29`, LD F, Vx (R212). -/
  | ldF (x : Reg)
  /-- `Fx33`, LD B, Vx (R213). -/
  | ldB (x : Reg)
  /-- `Fx55`, LD [I], Vx (R214). -/
  | storeRegs (x : Reg)
  /-- `Fx65`, LD Vx, [I] (R215). -/
  | loadRegs (x : Reg)
deriving DecidableEq, Repr

end Sys2Proof
end

