-- ==== Sys2Proof/Config.lean ====
section
/-! DEFINITION. What an implementation fixes (00_scope.md rule R9), as plain data that State carries and no
step writes, and the one free value of the machine: the random source (60_exceptions.md rule R274). -/

namespace Sys2Proof

/-- `UNKNOWN_OPCODE_POLICY` (R9, R265). -/
inductive UnknownOpcodePolicy where
  | skip
  | halt
deriving DecidableEq, Repr

/-- `VF_ORDER` (R9, R182). -/
inductive VfOrder where
  | flagThenResult
  | resultThenFlag
deriving DecidableEq, Repr

/-- `FONT_WRITE_POLICY` (R9, R63). -/
inductive FontWritePolicy where
  | fault
  | write
deriving DecidableEq, Repr

/-- `KEY_INDEX_POLICY` and `FONT_INDEX_POLICY` (R9, R230, R212). -/
inductive IndexPolicy where
  | fault
  | lowNibble
deriving DecidableEq, Repr

/-- `TIMER_MODE` (R9, R269, R270). -/
inductive TimerMode where
  | perCycle
  | tick60
deriving DecidableEq, Repr

/-- The font table: 80 bytes, 16 glyphs of 5 (R8, R72). -/
abbrev Font := Vector Byte 80

/-- The parameters of rule R9.  A value of this type is the "argument" that the rule asks a model to take:
State carries it, so that a statement about every state is a statement about every choice. -/
structure Config where
  unknownOpcode : UnknownOpcodePolicy
  vfOrder : VfOrder
  fontWrite : FontWritePolicy
  keyIndex : IndexPolicy
  fontIndex : IndexPolicy
  timerMode : TimerMode
  font : Font
  /-- `HOST_KEYMAP`: host key codes and the logical keys they name, the first entry for a code counting
  (R9, R273; 92_eei_decisions.md D30). -/
  hostKeymap : List (Nat × Key)
deriving DecidableEq, Repr

/-- FREE VALUE: the byte that the `k`-th call of `RandomByte()` returns (R274, 92_eei_decisions.md D23:
"a byte chosen freely, with no law").  It has no body, so no proof can rest on a value of it.
notes/assumptions/4.md. -/
opaque Config.randomByte : Nat → Byte

end Sys2Proof
end

