-- ==== Sys2Proof/Machine/Defaults.lean ====
section
/-! DEFINITION. The default values of the parameters of 00_scope.md rule R9, which State.reset carries. -/

namespace Sys2Proof.Machine

/-- The default of `FONT`: the table of 20_memory.md rule R72, one line a glyph, digit 0 first (general
knowledge, the spec says: K2 of 93_implementation_defined.md).  PRESUMED, notes/assumptions/12.md. -/
def conventionalFont : Font :=
  #v[0xF0#8, 0x90#8, 0x90#8, 0x90#8, 0xF0#8] ++
  #v[0x20#8, 0x60#8, 0x20#8, 0x20#8, 0x70#8] ++
  #v[0xF0#8, 0x10#8, 0xF0#8, 0x80#8, 0xF0#8] ++
  #v[0xF0#8, 0x10#8, 0xF0#8, 0x10#8, 0xF0#8] ++
  #v[0x90#8, 0x90#8, 0xF0#8, 0x10#8, 0x10#8] ++
  #v[0xF0#8, 0x80#8, 0xF0#8, 0x10#8, 0xF0#8] ++
  #v[0xF0#8, 0x80#8, 0xF0#8, 0x90#8, 0xF0#8] ++
  #v[0xF0#8, 0x10#8, 0x20#8, 0x40#8, 0x40#8] ++
  #v[0xF0#8, 0x90#8, 0xF0#8, 0x90#8, 0xF0#8] ++
  #v[0xF0#8, 0x90#8, 0xF0#8, 0x10#8, 0xF0#8] ++
  #v[0xF0#8, 0x90#8, 0xF0#8, 0x90#8, 0x90#8] ++
  #v[0xE0#8, 0x90#8, 0xE0#8, 0x90#8, 0xE0#8] ++
  #v[0xF0#8, 0x80#8, 0x80#8, 0x80#8, 0xF0#8] ++
  #v[0xE0#8, 0x90#8, 0x90#8, 0x90#8, 0xE0#8] ++
  #v[0xF0#8, 0x80#8, 0xF0#8, 0x80#8, 0xF0#8] ++
  #v[0xF0#8, 0x80#8, 0xF0#8, 0x80#8, 0x80#8]

/-- The defaults of R9.  `hostKeymap` has no default in the spec (OPEN, D30): the empty table, which names no
key, is a DESIGN CHOICE, notes/assumptions/3.md. -/
def defaultConfig : Config where
  unknownOpcode := .skip
  vfOrder := .flagThenResult
  fontWrite := .fault
  keyIndex := .fault
  fontIndex := .fault
  timerMode := .perCycle
  font := conventionalFont
  hostKeymap := []

end Sys2Proof.Machine
end

