-- ==== Sys2Proof/Machine/State.lean ====
section
/-! DEFINITION. The state of the machine: what 10_state.md and 20_memory.md give the CORE, the parameters of
00_scope.md rule R9, the outputs of 10_state.md rule R40 and the host's free schedule, all as plain data. -/

namespace Sys2Proof.Machine

/-- Machine control state (R33). -/
inductive MState where
  | unloaded
  | loaded
  | running
  | stopped
deriving DecidableEq, Repr

/-- The CORE's own fault kinds (60_exceptions.md rule R260).  These are not outcomes of `step`: taking one is
a next state (R261), notes/assumptions/1.md. -/
inductive FaultKind where
  | addressOutOfRange
  | stackOverflow
  | stackUnderflow
  | unknownOpcode
  | fontRegionWrite
  | keyIndexOutOfRange
  | fontIndexOutOfRange
deriving DecidableEq, Repr

/-- The fault record and fault report of R262.  `address` is an exact natural number (R61). -/
structure FaultRecord where
  kind : FaultKind
  pc : Word
  word : Option Word
  address : Option Nat
deriving DecidableEq, Repr

/-- The framebuffer: row `y`, whose bit `x` is pixel (x, y), so that cell `k` is bit `k mod 64` of row
`k div 64` (R30).  notes/assumptions/14.md. -/
abbrev Framebuffer := Vector (BitVec 64) 32

/-- The result of a `loadProgram` (70_reset_and_hazards.md rule R302). -/
inductive LoadResult where
  | ok
  | programTooLarge
deriving DecidableEq, Repr

/-- One output of the CORE to the host (R40). -/
inductive Output where
  /-- A frame: the snapshot of all cells (R272). -/
  | frame (snapshot : Framebuffer)
  /-- A fault report (R262). -/
  | faultReport (record : FaultRecord)
  /-- The non-fatal diagnostic of the skip policy (R265). -/
  | unknownOpcode (pc word : Word)
  /-- The result of a load (R302). -/
  | loadResult (result : LoadResult)
  /-- The answer of `isRunning()` (R33). -/
  | running (answer : Bool)
deriving DecidableEq, Repr

/-- What the host may do (60_exceptions.md rule R275).  A host key code is a natural number. -/
inductive HostAction where
  | loadProgram (bytes : List Byte)
  | run
  | stop
  | isRunning
  | keyDown (hostCode : Nat)
  | keyUp (hostCode : Nat)
  | tick
deriving DecidableEq, Repr

/-- One turn of the free schedule of R266(1): the host acts, or the CORE gets one cycle. -/
inductive Turn where
  | act (a : HostAction)
  | cycle
deriving DecidableEq, Repr

/-- Memory as the cells that differ from what an unlisted address reads as, addresses strictly rising
(Machine/Memory.lean). -/
abbrev Memory := List Host.Cell

/-- The whole state.  `host`, `draws` are the model's own; every other field is the spec's (INVENTORY.md). -/
structure State where
  /-- V0..VF (R20). -/
  v : Vector Byte 16
  /-- I (R24). -/
  i : Word
  /-- The program counter (R25). -/
  pc : Word
  /-- stack[0..15] (R27). -/
  stack : Vector Word 16
  /-- The number of entries on the stack, 0 to 16 (R27). -/
  sp : Fin 17
  /-- The delay timer DT (R29). -/
  dt : Byte
  /-- The sound timer ST (R29). -/
  st : Byte
  /-- The framebuffer (R30). -/
  fb : Framebuffer
  /-- KeyBuf, written by the host alone (R31). -/
  keyBuf : Vector Bool 16
  /-- Key, the latch that instructions read (R32). -/
  key : Vector Bool 16
  /-- The machine control state (R33). -/
  mstate : MState
  /-- The fault record (R33, R262). -/
  fault : Option FaultRecord
  /-- The refresh flag of the cycle (R34). -/
  refresh : Bool
  /-- The AddressSpace (R60). -/
  mem : Memory
  /-- The parameters of R9; no step writes them. -/
  cfg : Config
  /-- The host's turns still to come, first turn first (R266); empty means cycles from here on. -/
  host : List Turn
  /-- Everything emitted so far, oldest first (R40). -/
  out : List Output
  /-- How many bytes `RandomByte()` has returned (R274). -/
  draws : Nat
deriving DecidableEq, Repr

/-- Why a step could end in the outcome `fault`.  It has no constructor: every fault of this hardware is one
whose taking the spec describes (R261), so it is a next state, and nothing else stops the machine.  Safe: no
step can answer `fault`.  notes/assumptions/1.md. -/
inductive Fault where
deriving DecidableEq, Repr

/-- Why a step could be refused. -/
inductive Refusal where
  /-- Raised by `exec` alone, for an instruction that has no meaning yet; no arm is left that raises it.
  Safe: the machine stops where the hardware goes on. -/
  | notModelled (mnemonic : String)
deriving DecidableEq, Repr

/-- What a meaning answers. -/
abbrev Result := Host.Outcome State Fault Refusal

/-- Power-on (70_reset_and_hazards.md rule R300): Unloaded, no fault, and every other piece of state as the
reset procedure of R301 leaves it.  Memory lists nothing, so it reads as R301(1) says. -/
def State.reset : State where
  v := Vector.replicate 16 0#8
  i := 0#16
  pc := 0x200#16
  stack := Vector.replicate 16 0#16
  sp := 0
  dt := 0#8
  st := 0#8
  fb := Vector.replicate 32 0#64
  keyBuf := Vector.replicate 16 false
  key := Vector.replicate 16 false
  mstate := .unloaded
  fault := none
  refresh := false
  mem := []
  cfg := defaultConfig
  host := []
  out := []
  draws := 0

end Sys2Proof.Machine
end

