-- ==== Sys2Proof/Machine/Memory.lean ====
section
/-! DEFINITION. The AddressSpace (20_memory.md) as a list of the cells that differ from the reset contents, in
the one canonical form `Memory.wf`. -/

namespace Sys2Proof.Machine

/-- What an unlisted address reads as: the reset contents of R301(1), FONT at 0x000..0x04F and 0 elsewhere.
notes/assumptions/11.md. -/
def blankByte (font : Font) (a : Nat) : Byte := if h : a < 80 then font[a] else 0#8

/-- The byte listed for an address, if one is. -/
def memFind : Memory → Nat → Option Byte
  | [], _ => none
  | (b, u) :: m, a => if a = b then some u else memFind m a

/-- The byte at an address, unchecked (the checks of R61 come before, in Machine/Ops.lean). -/
def memRead (font : Font) (m : Memory) (a : Nat) : Byte := (memFind m a).getD (blankByte font a)

/-- Puts `v` at `a` in its sorted place; `blank` is what `a` reads as when unlisted, and writing that value
leaves `a` unlisted. -/
def memInsert (blank : Byte) : Memory → Nat → Byte → Memory
  | [], a, v => if v = blank then [] else [(a, v)]
  | (b, u) :: m, a, v =>
    if a < b then (if v = blank then (b, u) :: m else (a, v) :: (b, u) :: m)
    else if a = b then (if v = blank then m else (a, v) :: m)
    else (b, u) :: memInsert blank m a v

/-- Stores one byte, unchecked. -/
def memWrite (font : Font) (m : Memory) (a : Nat) (v : Byte) : Memory := memInsert (blankByte font a) m a v

/-- Stores bytes at `a`, `a + 1`, and so on. -/
def memWriteBytes (font : Font) (m : Memory) (a : Nat) : List Byte → Memory
  | [] => m
  | b :: bs => memWriteBytes font (memWrite font m a b) (a + 1) bs

/-- The `n` bytes at `a`, `a + 1`, and so on. -/
def memReadBytes (font : Font) (m : Memory) (a : Nat) : Nat → List Byte
  | 0 => []
  | n + 1 => memRead font m a :: memReadBytes font m (a + 1) n

/-- The canonical form from a lower bound on: addresses strictly rising, all within the 4096 of R60, and no
entry equal to what its address reads as when unlisted. -/
def memWfFrom (font : Font) : Nat → Memory → Bool
  | _, [] => true
  | lo, (a, u) :: m =>
    decide (lo ≤ a) && decide (a < 4096) && (u != blankByte font a) && memWfFrom font (a + 1) m

/-- The canonical form of memory. -/
def Memory.wf (font : Font) (m : Memory) : Bool := memWfFrom font 0 m

end Sys2Proof.Machine
end

