-- ==== Sys2Proof/Machine/Ops.lean ====
section
/-! DEFINITION. The named operations of 00_scope.md rule R12 over registers, memory, stack, framebuffer, keys,
timers and outputs, with taking a fault (60_exceptions.md rules R261, R262) as one of them. -/

namespace Sys2Proof.Machine

/-! ### Registers -/

/-- `V[x]` (R12, R20). -/
def State.getV (s : State) (x : Reg) : Byte := s.v[x]

/-- `V[x] <- b` (R12, R20). -/
def State.setV (s : State) (x : Reg) (b : Byte) : State := { s with v := s.v.set x b }

/-- VF, the flag register (R22). -/
def regF : Reg := 15

/-- `I <- a` (R12, R24). -/
def State.setI (s : State) (a : Word) : State := { s with i := a }

/-- `pc <- a` (R12, R25). -/
def State.setPc (s : State) (a : Word) : State := { s with pc := a }

/-- `pc <- pc + n`, the advance each instruction writes itself (R25, R99).  notes/assumptions/13.md. -/
def State.advance (s : State) (n : Word) : State := s.setPc (s.pc + n)

/-- The two advances of every conditional skip (R160, R164). -/
def State.skipIf (s : State) (c : Bool) : State := if c then s.advance 4 else s.advance 2

/-- `DT <- b` (R29). -/
def State.setDT (s : State) (b : Byte) : State := { s with dt := b }

/-- `ST <- b` (R29). -/
def State.setST (s : State) (b : Byte) : State := { s with st := b }

/-- Loads `V[k]`, `V[k+1]`, and so on from a list of bytes (R215). -/
def vLoad (v : Vector Byte 16) (k : Nat) : List Byte → Vector Byte 16
  | [] => v
  | b :: bs => vLoad (v.setIfInBounds k b) (k + 1) bs

/-! ### Outputs and faults -/

/-- Emits one output to the host (R40).  notes/assumptions/6.md. -/
def State.emit (s : State) (o : Output) : State := { s with out := s.out ++ [o] }

/-- The numeric code of a fault kind (R260; 92_eei_decisions.md D31). -/
def faultCode : FaultKind → Nat
  | .addressOutOfRange => 1
  | .stackOverflow => 2
  | .stackUnderflow => 3
  | .unknownOpcode => 4
  | .fontRegionWrite => 5
  | .keyIndexOutOfRange => 6
  | .fontIndexOutOfRange => 7

/-- Taking a fault (R261, R262): the record is set and reported, `mstate` becomes Stopped, and nothing else
changes.  `s` is the state in which the instruction began, so the recorded `pc` is its own address. -/
def State.raise (s : State) (kind : FaultKind) (word : Option Word) (address : Option Nat) : State :=
  let record : FaultRecord := ⟨kind, s.pc, word, address⟩
  { s with mstate := .stopped, fault := some record, out := s.out ++ [.faultReport record] }

/-- An UNKNOWN word, and a SYS word (R265): under `skip` the diagnostic and `pc + 2`, under `halt` the fault. -/
def unknownWord (w : Word) (s : State) : Result :=
  match s.cfg.unknownOpcode with
  | .skip => .next ((s.emit (.unknownOpcode s.pc w)).advance 2)
  | .halt => .next (s.raise .unknownOpcode (some w) none)

/-- The host's schedule after a turn is taken (notes/assumptions/5.md). -/
def State.setHost (s : State) (turns : List Turn) : State := { s with host := turns }

/-! ### Memory -/

/-- The byte of memory at an address, unchecked. -/
def State.peek (s : State) (a : Nat) : Byte := memRead s.cfg.font s.mem a

/-- The `n` bytes from an address on, unchecked. -/
def State.peekBytes (s : State) (a n : Nat) : List Byte := memReadBytes s.cfg.font s.mem a n

/-- Stores bytes from an address on, unchecked. -/
def State.pokeBytes (s : State) (a : Nat) (bs : List Byte) : State :=
  { s with mem := memWriteBytes s.cfg.font s.mem a bs }

/-- The check of `MemRead(a, 1)` (R61, R62). -/
def checkRead (a : Nat) : Option FaultKind := if a > 0xFFF then some .addressOutOfRange else none

/-- The checks of `MemWrite(a, 1, v)`, the bounds check first (R61, R63, R69). -/
def checkWrite (cfg : Config) (a : Nat) : Option FaultKind :=
  if a > 0xFFF then some .addressOutOfRange
  else if a ≤ 0x04F ∧ cfg.fontWrite = .fault then some .fontRegionWrite
  else none

/-- The first of the `n` addresses from `a` on that fails a check, with its fault kind: a multi-byte
instruction checks all of them, in ascending order, before it moves any byte (R69). -/
def firstFailure (check : Nat → Option FaultKind) : Nat → Nat → Option (FaultKind × Nat)
  | _, 0 => none
  | a, n + 1 =>
    match check a with
    | some kind => some (kind, a)
    | none => firstFailure check (a + 1) n

/-- Runs an instruction's effect once its addresses have been checked (R69): a failed check takes the fault
of instruction word `w` from `s`, in which nothing has been done yet. -/
def State.ifChecked (s : State) (w : Word) (failure : Option (FaultKind × Nat)) (effect : State) : Result :=
  match failure with
  | some (kind, a) => .next (s.raise kind (some w) (some a))
  | none => .next effect

/-- `MemRead(pc, 2)`, the fetch (R64): the big-endian word, or the address whose check fails. -/
def State.fetch (s : State) : Except Nat Word :=
  if s.pc.toNat + 1 > 0xFFF then .error (s.pc.toNat + 1)
  else .ok (joinBytes (s.peek s.pc.toNat) (s.peek (s.pc.toNat + 1)))

/-! ### The call stack (R28) -/

/-- `push(a)`: none where the stack is full. -/
def State.push (s : State) (a : Word) : Option State :=
  if h : s.sp.val < 16 then
    some { s with stack := s.stack.set s.sp.val a, sp := ⟨s.sp.val + 1, by omega⟩ }
  else none

/-- `pop()`: the entry pushed last, and the state without it; none where the stack is empty.  The entry's
value stays in its slot. -/
def State.pop (s : State) : Option (Word × State) :=
  if h : 0 < s.sp.val then
    some (s.stack[s.sp.val - 1], { s with sp := ⟨s.sp.val - 1, by omega⟩ })
  else none

/-! ### The framebuffer (R30) -/

/-- `FB[k]`. -/
def pixelAt (fb : Framebuffer) (k : FbCell) : Bool := (fb[k.val / 64]).getLsbD (k.val % 64)

/-- `FB[k] <- FB[k] ^ 1`. -/
def flipAt (fb : Framebuffer) (k : FbCell) : Framebuffer :=
  fb.set (k.val / 64) (fb[k.val / 64] ^^^ BitVec.twoPow 64 (k.val % 64))

/-- Every cell 0. -/
def clearFb : Framebuffer := Vector.replicate 32 0#64

/-- Writes the framebuffer. -/
def State.setFb (s : State) (fb : Framebuffer) : State := { s with fb := fb }

/-- `request_refresh` (R12, R34). -/
def State.requestRefresh (s : State) : State := { s with refresh := true }

/-! ### Keys, timers and the random source -/

/-- The least key that is down in the latch (R233; 92_eei_decisions.md D17). -/
def leastKeyDown (key : Vector Bool 16) : Option Key := (List.finRange 16).find? fun k => key[k]

/-- One timer's decay: decrement if not zero (R269). -/
def decayTimer (b : Byte) : Byte := if b = 0#8 then 0#8 else b - 1#8

/-- `decay()` (R269). -/
def State.decay (s : State) : State := { s with dt := decayTimer s.dt, st := decayTimer s.st }

/-- `RandomByte()`: the next free byte, and the state in which it has been drawn (R274).
notes/assumptions/4.md. -/
def State.drawByte (s : State) : Byte × State :=
  (Config.randomByte s.draws, { s with draws := s.draws + 1 })

end Sys2Proof.Machine
end

