-- ==== Sys2Proof/Machine/Flags.lean ====
section
/-! DEFINITION. The flags that the arithmetic, shift and draw instructions leave in VF, and the order in which
flag and result are written (43_alu.md rule R182). -/

namespace Sys2Proof.Machine

/-- A flag as the value VF takes. -/
def flagByte (flag : Bool) : Byte := if flag then 1#8 else 0#8

/-- The carry of `a + b`: set iff the exact sum passes 255 (R187). -/
def carryFlag (a b : Byte) : Bool := decide (a.toNat + b.toNat > 255)

/-- NOT borrow of `a - b`: clear iff `b > a` (R188, R190). -/
def notBorrowFlag (a b : Byte) : Bool := !decide (b.toNat > a.toNat)

/-- The bit a right shift by one pushes out (R189). -/
def lowBitFlag (a : Byte) : Bool := a.getLsbD 0

/-- The bit a left shift by one pushes out (R191). -/
def highBitFlag (a : Byte) : Bool := a.getLsbD 7

/-- The two writes of R182, in the order the parameter VF_ORDER gives. -/
def State.writeFlagged (s : State) (x : Reg) (res : Byte) (flag : Bool) : State :=
  match s.cfg.vfOrder with
  | .flagThenResult => (s.setV regF (flagByte flag)).setV x res
  | .resultThenFlag => (s.setV x res).setV regF (flagByte flag)

end Sys2Proof.Machine
end

