-- ==== Sys2Proof/Machine/Alu.lean ====
section
/-! DEFINITION. Register loads and arithmetic, 43_alu.md.  Both operands of an 8xyn instruction are read from
the state before anything is written (R182), and no instruction here raises a fault. -/

namespace Sys2Proof.Machine

/-- LD Vx, nn, `6xnn` (R180). -/
def execLdImm (x : Reg) (nn : Byte) (s : State) : Result := .next ((s.setV x nn).advance 2)

/-- ADD Vx, nn, `7xnn`: modulo 256, no flag (R181). -/
def execAddImm (x : Reg) (nn : Byte) (s : State) : Result := .next ((s.setV x (s.getV x + nn)).advance 2)

/-- LD Vx, Vy, `8xy0` (R183). -/
def execLdReg (x y : Reg) (s : State) : Result := .next ((s.setV x (s.getV y)).advance 2)

/-- OR Vx, Vy, `8xy1` (R184). -/
def execOrReg (x y : Reg) (s : State) : Result := .next ((s.setV x (s.getV x ||| s.getV y)).advance 2)

/-- AND Vx, Vy, `8xy2` (R185). -/
def execAndReg (x y : Reg) (s : State) : Result := .next ((s.setV x (s.getV x &&& s.getV y)).advance 2)

/-- XOR Vx, Vy, `8xy3` (R186). -/
def execXorReg (x y : Reg) (s : State) : Result := .next ((s.setV x (s.getV x ^^^ s.getV y)).advance 2)

/-- ADD Vx, Vy, `8xy4` (R187). -/
def execAddReg (x y : Reg) (s : State) : Result :=
  .next ((s.writeFlagged x (s.getV x + s.getV y) (carryFlag (s.getV x) (s.getV y))).advance 2)

/-- SUB Vx, Vy, `8xy5` (R188). -/
def execSubReg (x y : Reg) (s : State) : Result :=
  .next ((s.writeFlagged x (s.getV x - s.getV y) (notBorrowFlag (s.getV x) (s.getV y))).advance 2)

/-- SHR Vx, `8xy6`, any y (R189). -/
def execShr (x _y : Reg) (s : State) : Result :=
  .next ((s.writeFlagged x (s.getV x >>> 1) (lowBitFlag (s.getV x))).advance 2)

/-- SUBN Vx, Vy, `8xy7` (R190). -/
def execSubnReg (x y : Reg) (s : State) : Result :=
  .next ((s.writeFlagged x (s.getV y - s.getV x) (notBorrowFlag (s.getV y) (s.getV x))).advance 2)

/-- SHL Vx, `8xyE`, any y (R191). -/
def execShl (x _y : Reg) (s : State) : Result :=
  .next ((s.writeFlagged x (s.getV x <<< 1) (highBitFlag (s.getV x))).advance 2)

/-- RND Vx, nn, `Cxnn`: one fresh draw per execution (R192). -/
def execRnd (x : Reg) (nn : Byte) (s : State) : Result :=
  let (r, drawn) := s.drawByte
  .next ((drawn.setV x (r &&& nn)).advance 2)

end Sys2Proof.Machine
end

