-- ==== Sys2Proof/Machine/Operands.lean ====
section
/-! DEFINITION. The operand forms: how a field or a register becomes the address, key, glyph, cell or digit an
instruction works on. -/

namespace Sys2Proof.Machine

/-- `zext_16(nnn)` (30_encoding.md rule R92). -/
def zextAddr (nnn : Addr) : Word := nnn.setWidth 16

/-- `zext_16(nnn) + V[0]`, not reduced: at most 0x10FE (41_control_flow.md rule R144). -/
def offsetTarget (nnn : Addr) (v0 : Byte) : Word := zextAddr nnn + v0.setWidth 16

/-- `cell(px, py) = (py * 64 + px) mod 2048` (40_display.md rule R121). -/
def cellAt (px py : Nat) : FbCell := ⟨(py * 64 + px) % 2048, Nat.mod_lt _ (by decide)⟩

/-- The index that a register value names among 16 things, by an index policy: none where the policy faults
(the shared shape of R230 and R212). -/
def nibbleIndex (policy : IndexPolicy) (b : Byte) : Option (Fin 16) :=
  if h : b.toNat < 16 then some ⟨b.toNat, h⟩
  else
    match policy with
    | .fault => none
    | .lowNibble => some ⟨b.toNat % 16, Nat.mod_lt _ (by decide)⟩

/-- `keyIndex(v)` (45_keys_timers.md rule R230). -/
def keyIndex (cfg : Config) (b : Byte) : Option Key := nibbleIndex cfg.keyIndex b

/-- The digit whose glyph LD F names (44_index_memory.md rule R212). -/
def glyphIndex (cfg : Config) (b : Byte) : Option (Fin 16) := nibbleIndex cfg.fontIndex b

/-- The address of a glyph, `0x000 + 5 * d` (R72, R212). -/
def glyphAddress (d : Fin 16) : Word := BitVec.ofNat 16 (5 * d.val)

/-- The three decimal digits, hundreds first (44_index_memory.md rule R213). -/
def bcdDigits (b : Byte) : List Byte :=
  [BitVec.ofNat 8 (b.toNat / 100), BitVec.ofNat 8 (b.toNat / 10 % 10), BitVec.ofNat 8 (b.toNat % 10)]

/-- `V[0]` to `V[x]`, in order (R214). -/
def State.firstRegs (s : State) (x : Reg) : List Byte := s.v.toList.take (x.val + 1)

/-- `I + x + 1`, the address register after a bulk move (R214, R215). -/
def State.iAfter (s : State) (x : Reg) : Word := BitVec.ofNat 16 (s.i.toNat + x.val + 1)

end Sys2Proof.Machine
end

