-- ==== Sys2Proof/Machine/ControlFlow.lean ====
section
/-! DEFINITION. Control transfer, 41_control_flow.md: RET, SYS, JP, CALL and JP V0.  No target is aligned,
masked or checked (R145). -/

namespace Sys2Proof.Machine

/-- RET, `00EE` (R140). -/
def execRet (s : State) : Result :=
  match s.pop with
  | some (target, popped) => .next (popped.setPc target)
  | none => .next (s.raise .stackUnderflow (some (encodeWord .ret)) none)

/-- SYS nnn, `0nnn`: handled as an unrecognized opcode (R141, R265). -/
def execSys (nnn : Addr) (s : State) : Result := unknownWord (encodeWord (.sys nnn)) s

/-- JP nnn, `1nnn` (R142). -/
def execJp (nnn : Addr) (s : State) : Result := .next (s.setPc (zextAddr nnn))

/-- CALL nnn, `2nnn` (R143). -/
def execCall (nnn : Addr) (s : State) : Result :=
  match s.push (s.pc + 2) with
  | some pushed => .next (pushed.setPc (zextAddr nnn))
  | none => .next (s.raise .stackOverflow (some (encodeWord (.call nnn))) none)

/-- JP V0, nnn, `Bnnn` (R144). -/
def execJpV0 (nnn : Addr) (s : State) : Result := .next (s.setPc (offsetTarget nnn (s.getV 0)))

end Sys2Proof.Machine
end

