-- ==== Sys2Proof/Machine/Display.lean ====
section
/-! DEFINITION. The display instructions, 40_display.md: CLS and DRW. -/

namespace Sys2Proof.Machine

/-- CLS, `00E0` (R120). -/
def execCls (s : State) : Result := .next ((s.setFb clearFb).requestRefresh.advance 2)

/-- XORs one set sprite bit into cell `k`; the Bool gathers collisions, a cell that was on (R122). -/
def plot (p : Framebuffer × Bool) (k : FbCell) : Framebuffer × Bool :=
  (flipAt p.1 k, p.2 || pixelAt p.1 k)

/-- Draws one sprite row at column `px`, row `py`: bit 7 is the leftmost pixel, and a clear bit does nothing
(R122; 92_eei_decisions.md D21, D22). -/
def drawRow (px py : Nat) (row : Byte) (p : Framebuffer × Bool) : Framebuffer × Bool :=
  (List.range 8).foldl (fun p c => if row.getLsbD (7 - c) then plot p (cellAt (px + c) py) else p) p

/-- Draws sprite rows downward from row `py` (R122). -/
def drawRows (px : Nat) : Nat → List Byte → Framebuffer × Bool → Framebuffer × Bool
  | _, [], p => p
  | py, row :: rows, p => drawRows px (py + 1) rows (drawRow px py row p)

/-- What drawing leaves: the framebuffer, and whether any pixel that was on was turned off. -/
def State.drawSprite (s : State) (x y : Reg) (n : Fin 16) : Framebuffer × Bool :=
  drawRows (s.getV x).toNat (s.getV y).toNat (s.peekBytes s.i.toNat n.val) (s.fb, false)

/-- DRW Vx, Vy, n, `Dxyn` (R122).  The coordinates are read before VF is written. -/
def execDrw (x y : Reg) (n : Fin 16) (s : State) : Result :=
  let drawn := s.drawSprite x y n
  s.ifChecked (encodeWord (.drw x y n)) (firstFailure checkRead s.i.toNat n.val)
    (((s.setFb drawn.1).setV regF (flagByte drawn.2)).requestRefresh.advance 2)

end Sys2Proof.Machine
end

