-- ==== Sys2Proof/Machine/IndexMemory.lean ====
section
/-! DEFINITION. The address register and memory instructions, 44_index_memory.md.  Every address is checked
before any byte moves (20_memory.md rule R69). -/

namespace Sys2Proof.Machine

/-- LD I, nnn, `Annn` (R210). -/
def execLdI (nnn : Addr) (s : State) : Result := .next ((s.setI (zextAddr nnn)).advance 2)

/-- ADD I, Vx, `Fx1E`: modulo 65536, no flag (R211). -/
def execAddI (x : Reg) (s : State) : Result :=
  .next ((s.setI (s.i + (s.getV x).setWidth 16)).advance 2)

/-- LD F, Vx, `Fx29` (R212). -/
def execLdF (x : Reg) (s : State) : Result :=
  match glyphIndex s.cfg (s.getV x) with
  | some d => .next ((s.setI (glyphAddress d)).advance 2)
  | none => .next (s.raise .fontIndexOutOfRange (some (encodeWord (.ldF x))) none)

/-- LD B, Vx, `Fx33`: three digits at I, I+1, I+2; I is kept (R213). -/
def execLdB (x : Reg) (s : State) : Result :=
  s.ifChecked (encodeWord (.ldB x)) (firstFailure (checkWrite s.cfg) s.i.toNat 3)
    ((s.pokeBytes s.i.toNat (bcdDigits (s.getV x))).advance 2)

/-- LD [I], Vx, `Fx55`: V0..Vx to I..I+x, then I + x + 1 (R214). -/
def execStoreRegs (x : Reg) (s : State) : Result :=
  s.ifChecked (encodeWord (.storeRegs x)) (firstFailure (checkWrite s.cfg) s.i.toNat (x.val + 1))
    (((s.pokeBytes s.i.toNat (s.firstRegs x)).setI (s.iAfter x)).advance 2)

/-- LD Vx, [I], `Fx65`: V0..Vx from I..I+x, then I + x + 1 (R215). -/
def execLoadRegs (x : Reg) (s : State) : Result :=
  s.ifChecked (encodeWord (.loadRegs x)) (firstFailure checkRead s.i.toNat (x.val + 1))
    ((State.setI { s with v := vLoad s.v 0 (s.peekBytes s.i.toNat (x.val + 1)) } (s.iAfter x)).advance 2)

end Sys2Proof.Machine
end

