-- ==== Sys2Proof/Machine/KeysTimers.lean ====
section
/-! DEFINITION. The key and timer instructions, 45_keys_timers.md.  They read the latch `key`, never the live
key buffer (10_state.md rule R32). -/

namespace Sys2Proof.Machine

/-- The shared shape of the two key skips: `wanted` is the key state that skips (R230, R231, R232). -/
def keySkip (wanted : Bool) (x : Reg) (w : Word) (s : State) : Result :=
  match keyIndex s.cfg (s.getV x) with
  | some k => .next (s.skipIf (s.key[k] == wanted))
  | none => .next (s.raise .keyIndexOutOfRange (some w) none)

/-- SKP Vx, `Ex9E` (R231). -/
def execSkp (x : Reg) (s : State) : Result := keySkip true x (encodeWord (.skp x)) s

/-- SKNP Vx, `ExA1` (R232). -/
def execSknp (x : Reg) (s : State) : Result := keySkip false x (encodeWord (.sknp x)) s

/-- LD Vx, DT, `Fx07` (R234). -/
def execLdVxDt (x : Reg) (s : State) : Result := .next ((s.setV x s.dt).advance 2)

/-- LD Vx, K, `Fx0A`: the least key that is down, or a cycle without effect and `pc` kept (R233). -/
def execLdVxK (x : Reg) (s : State) : Result :=
  match leastKeyDown s.key with
  | some k => .next ((s.setV x (BitVec.ofNat 8 k.val)).advance 2)
  | none => .next s

/-- LD DT, Vx, `Fx15` (R235). -/
def execLdDtVx (x : Reg) (s : State) : Result := .next ((s.setDT (s.getV x)).advance 2)

/-- LD ST, Vx, `Fx18` (R236). -/
def execLdStVx (x : Reg) (s : State) : Result := .next ((s.setST (s.getV x)).advance 2)

end Sys2Proof.Machine
end

