-- ==== Sys2Proof/Machine/Cycle.lean ====
section
/-! DEFINITION. The cycle of the CORE (10_state.md rules R36, R37). -/

namespace Sys2Proof.Machine

/-- The cycle is enabled (R36).  `exec` is the execute stage alone and does not ask (notes/assumptions/18.md). -/
def State.canCycle (s : State) : Bool := s.mstate == .running && s.fault == none

/-- The start of a cycle: the key buffer is copied into the latch and `refresh` is cleared (R32, R34, R36). -/
def State.beginCycle (s : State) : State := { s with key := s.keyBuf, refresh := false }

/-- Emits the frame that the instruction asked for (R272). -/
def State.emitFrame (s : State) : State := if s.refresh then s.emit (.frame s.fb) else s

/-- The decay that ends a cycle under `per_cycle`, and none under `tick60` (R269, R270). -/
def State.cycleDecay (s : State) : State :=
  match s.cfg.timerMode with
  | .perCycle => s.decay
  | .tick60 => s

/-- The end of a cycle: the frame, then the decay (R36).  A cycle that took a fault has neither, and leaves
`refresh` too as it was before the cycle (R37).  notes/assumptions/9.md. -/
def endCycle (before after : State) : State :=
  if after.fault.isSome then { after with refresh := before.refresh }
  else after.emitFrame.cycleDecay

/-- Ends the cycle that began in `before` where execution answers a next state. -/
def finishCycle (before : State) : Result → Result
  | .next after => .next (endCycle before after)
  | .fault r => .fault r
  | .refused r => .refused r

/-- Executes one instruction word: an instruction by `exec`, an UNKNOWN word by R265. -/
def execWord (w : Word) (s : State) : Result :=
  match decodeWord w with
  | .ok i => exec i s
  | .error _ => unknownWord w s

/-- Fetch and execute, or the fault of a fetch, whose record has no word (R36, R64, R262). -/
def fetchExecute (s : State) : Result :=
  match s.fetch with
  | .ok w => execWord w s
  | .error a => .next (s.raise .addressOutOfRange none (some a))

/-- One cycle where it is enabled (R36); where it is not, no cycle runs and all state is kept (R277).
notes/assumptions/7.md. -/
def cycle (s : State) : Result :=
  if s.canCycle then finishCycle s (fetchExecute s.beginCycle) else .next s

end Sys2Proof.Machine
end

