-- ==== Sys2Proof/Machine/HostActions.lean ====
section
/-! DEFINITION. The host's actions (60_exceptions.md rule R275) and the reset procedure that a load runs
(70_reset_and_hazards.md rules R301, R302).  An action that is not admitted changes nothing.
notes/assumptions/8.md. -/

namespace Sys2Proof.Machine

/-- The reset procedure (R301).  It leaves `mstate`, the parameters, the host's schedule, what has been
emitted and the random source alone.  Memory lists nothing, so it reads as R301(1) says. -/
def State.resetProc (s : State) : State :=
  { s with
    v := Vector.replicate 16 0#8, i := 0#16, pc := 0x200#16
    stack := Vector.replicate 16 0#16, sp := 0, dt := 0#8, st := 0#8
    fb := clearFb, keyBuf := Vector.replicate 16 false, key := Vector.replicate 16 false
    fault := none, refresh := false, mem := [] }

/-- `loadProgram(bytes)`, admitted unless Running (R302).  A load that does not fit has run the whole reset
procedure first, its step (5) included, so no fault is recorded after it (90_conflicts.md C14;
notes/assumptions/17.md). -/
def hostLoad (bytes : List Byte) (s : State) : State :=
  if s.mstate = .running then s
  else if 0x200 + bytes.length > 4096 then
    State.emit { s.resetProc with mstate := .unloaded } (.loadResult .programTooLarge)
  else
    State.emit { s.resetProc.pokeBytes 0x200 bytes with mstate := .loaded } (.loadResult .ok)

/-- `run()`, admitted from Loaded or Stopped with no fault recorded (R39). -/
def hostRun (s : State) : State :=
  if (s.mstate = .loaded ∨ s.mstate = .stopped) ∧ s.fault = none then { s with mstate := .running } else s

/-- `stop()`, admitted while Running (R38). -/
def hostStop (s : State) : State := if s.mstate = .running then { s with mstate := .stopped } else s

/-- `isRunning()` (R33). -/
def hostIsRunning (s : State) : State := s.emit (.running (s.mstate == .running))

/-- `translate(hostCode)` through HOST_KEYMAP (R273). -/
def translateKey (keymap : List (Nat × Key)) (hostCode : Nat) : Option Key :=
  match keymap with
  | [] => none
  | (code, k) :: rest => if code = hostCode then some k else translateKey rest hostCode

/-- `keyDown(h)` and `keyUp(h)`: one flag of the key buffer; an unmapped code is ignored (R273). -/
def hostKey (down : Bool) (hostCode : Nat) (s : State) : State :=
  match translateKey s.cfg.hostKeymap hostCode with
  | some k => { s with keyBuf := s.keyBuf.set k down }
  | none => s

/-- The timer tick, admitted under `tick60` while Running (R270). -/
def hostTick (s : State) : State :=
  if s.cfg.timerMode = .tick60 ∧ s.mstate = .running then s.decay else s

/-- What one host action does (R275). -/
def hostAct (a : HostAction) (s : State) : State :=
  match a with
  | .loadProgram bytes => hostLoad bytes s
  | .run => hostRun s
  | .stop => hostStop s
  | .isRunning => hostIsRunning s
  | .keyDown h => hostKey true h s
  | .keyUp h => hostKey false h s
  | .tick => hostTick s

/-- Stores one byte where the address exists, and nothing elsewhere. -/
def State.placeByte (s : State) (a : Nat) (b : Byte) : State :=
  if a < 4096 then s.pokeBytes a [b] else s

/-- Puts an instruction word where the next cycle fetches it and makes the next step that cycle: the CORE
Running with no fault, and no host turn before it.  It stands for the load and run of R305.
notes/assumptions/5.md. -/
def State.placeInstruction (s : State) (w : Word) : State :=
  { (s.placeByte s.pc.toNat (highByte w)).placeByte (s.pc.toNat + 1) (lowByte w) with
    mstate := .running, fault := none, host := [] }

end Sys2Proof.Machine
end

