-- ==== Sys2Proof/Machine/Step.lean ====
section
/-! DEFINITION. One step of the machine: the host's next turn, or a cycle of the CORE.  The two never overlap
(00_scope.md rule R6; 60_exceptions.md rule R266). -/

namespace Sys2Proof.Machine

/-- One step.  The host's turns come from the free schedule in `host`; with none left, cycles go on. -/
def step (s : State) : Host.Outcome State Fault Refusal :=
  match s.host with
  | .act a :: rest => .next (hostAct a (s.setHost rest))
  | .cycle :: rest => cycle (s.setHost rest)
  | [] => cycle s

/-- `s` with the instruction of a table row's `nbits` bits `w` placed where `step` fetches next. -/
def State.withFetchWord (s : State) (nbits w : Nat) : State := s.placeInstruction (tableWord nbits w)

end Sys2Proof.Machine
end

