-- ==== Sys2Proof/Safety.lean ====
section
/-! DEFINITION. The terms in which claims are stated: what taking a fault leaves, which fields and bytes each
instruction may change (the frames), and the invariants of the machine. -/

namespace Sys2Proof.Machine

/-- What taking the fault with record `r` leaves of `s` (60_exceptions.md rule R261). -/
def State.afterFault (s : State) (r : FaultRecord) : State :=
  { s with mstate := .stopped, fault := some r, out := s.out ++ [.faultReport r] }

/-- The next step is a cycle, and `rest` are the host's turns left after it: the host has no turn left, or its
next turn lets one cycle pass (60_exceptions.md rule R266; notes/assumptions/5.md). -/
abbrev State.CyclesNext (s : State) (rest : List Turn) : Prop :=
  (s.host = [] ∧ rest = []) ∨ s.host = .cycle :: rest

/-- A timer at the end of a cycle that did not fault (60_exceptions.md rules R269, R270): one less where it is
not zero and the parameter TIMER_MODE is `per_cycle`. -/
def timerAfterCycle (mode : TimerMode) (b : Byte) : Byte :=
  if mode = .perCycle ∧ b ≠ 0#8 then b - 1#8 else b

/-- The end of an instruction that wrote a result and a flag (43_alu.md rule R182): only `v` and `pc` change,
Vx holds the result, VF the flag, and where x is F the parameter VF_ORDER says which of the two stays. -/
def LeavesResultAndFlag (s t : State) (x : Reg) (res flag : Nat) : Prop :=
  t = { s with v := t.v, pc := s.pc + 2 } ∧
  ∀ r : Reg, (t.getV r).toNat =
    if r = x ∧ (x ≠ 15 ∨ s.cfg.vfOrder = .flagThenResult) then res
    else if r = 15 then flag
    else (s.getV r).toNat

/-- Sprite pixel (r, c) of `DRW Vx, Vy, n` is set and lands in cell `k` (40_display.md rules R121, R122). -/
def SpriteLights (s : State) (x y : Reg) (n : Fin 16) (k : FbCell) : Prop :=
  ∃ r c : Nat, r < n.val ∧ c < 8 ∧ (s.peek (s.i.toNat + r)).getLsbD (7 - c) = true ∧
    k.val = (((s.getV y).toNat + r) * 64 + ((s.getV x).toNat + c)) % 2048

/-- The general registers an instruction may write: its destination, the registers of a bulk load, and VF
where the instruction writes a flag (10_state.md rule R22). -/
def mayWriteV : Instr → Reg → Bool
  | .ldImm x _, r => r == x
  | .addImm x _, r => r == x
  | .ldReg x _, r => r == x
  | .orReg x _, r => r == x
  | .andReg x _, r => r == x
  | .xorReg x _, r => r == x
  | .addReg x _, r => r == x || r == 15
  | .subReg x _, r => r == x || r == 15
  | .shr x _, r => r == x || r == 15
  | .subnReg x _, r => r == x || r == 15
  | .shl x _, r => r == x || r == 15
  | .rnd x _, r => r == x
  | .drw _ _ _, r => r == 15
  | .ldVxDt x, r => r == x
  | .ldVxK x, r => r == x
  | .loadRegs x, r => decide (r ≤ x)
  | .cls, _ | .ret, _ | .sys _, _ | .jp _, _ | .call _, _ | .seImm _ _, _ | .sneImm _ _, _
  | .seReg _ _, _ | .sneReg _ _, _ | .ldI _, _ | .jpV0 _, _ | .skp _, _ | .sknp _, _
  | .ldDtVx _, _ | .ldStVx _, _ | .addI _, _ | .ldF _, _ | .ldB _, _ | .storeRegs _, _ => false

/-- How many bytes an instruction stores, from address I on (20_memory.md rule R68). -/
def storedBytes : Instr → Nat
  | .ldB _ => 3
  | .storeRegs x => x.val + 1
  | .cls | .ret | .sys _ | .jp _ | .call _ | .seImm _ _ | .sneImm _ _ | .seReg _ _ | .ldImm _ _
  | .addImm _ _ | .ldReg _ _ | .orReg _ _ | .andReg _ _ | .xorReg _ _ | .addReg _ _ | .subReg _ _
  | .shr _ _ | .subnReg _ _ | .shl _ _ | .sneReg _ _ | .ldI _ | .jpV0 _ | .rnd _ _ | .drw _ _ _
  | .skp _ | .sknp _ | .ldVxDt _ | .ldVxK _ | .ldDtVx _ | .ldStVx _ | .addI _ | .ldF _
  | .loadRegs _ => 0

/-- The instruction is one of these that may write I (10_state.md rule R24). -/
def mayWriteI : Instr → Bool
  | .ldI _ | .addI _ | .ldF _ | .storeRegs _ | .loadRegs _ => true
  | .cls | .ret | .sys _ | .jp _ | .call _ | .seImm _ _ | .sneImm _ _ | .seReg _ _ | .ldImm _ _
  | .addImm _ _ | .ldReg _ _ | .orReg _ _ | .andReg _ _ | .xorReg _ _ | .addReg _ _ | .subReg _ _
  | .shr _ _ | .subnReg _ _ | .shl _ _ | .sneReg _ _ | .jpV0 _ | .rnd _ _ | .drw _ _ _
  | .skp _ | .sknp _ | .ldVxDt _ | .ldVxK _ | .ldDtVx _ | .ldStVx _ | .ldB _ => false

/-- The font region reads as FONT (20_memory.md rule R72). -/
def State.FontIntact (s : State) : Prop := ∀ a : Fin 80, s.peek a.val = s.cfg.font[a]

/-- What every step keeps: memory in its canonical form, the bounds on `pc` and on return addresses that
10_state.md rule R26 and 92_eei_decisions.md D39 state, and a recorded fault only while Stopped (R261, R264). -/
structure State.Inv (s : State) : Prop where
  memory : s.mem.wf s.cfg.font = true
  pcBound : s.pc.toNat ≤ 0x10FE
  returnAddresses : ∀ j : Fin 16, s.stack[j].toNat ≤ 0x1000
  faultStops : s.fault ≠ none → s.mstate = .stopped

end Sys2Proof.Machine
end

