-- ==== Sys2Proof/Certificates/Slice0/Obligations.lean ====
section
/-! DEFINITION. What the model claims, for the provers: statements from the numbered rules of spec/.  Where a
rule rests on a decision the spec marks as its own, or on general knowledge it marks, the docstring says so. -/

open Sys2Proof Sys2Proof.Machine

/-! ### Encoding -/

/-- Decoding the bytes of a well-formed instruction gives it back, and the rest of the bytes (30_encoding.md
section 2: the decoder of R94 on the patterns of R96, where the exact words 00E0 and 00EE and the n = 0 tests
are the spec's decisions D6 and D7). -/
def Obligations.DecodeUndoesEncode : Prop :=
  ∀ (i : Instr) (rest : List Byte), i.wf = true → decode (encode i ++ rest) = .ok (i, rest)

/-- Whatever decodes is a well-formed instruction whose bytes stood there: no two words share a meaning
(30_encoding.md section 2, the derived rule R95). -/
def Obligations.EncodeUndoesDecode : Prop :=
  ∀ (bs : List Byte) (i : Instr) (rest : List Byte),
    decode bs = .ok (i, rest) → i.wf = true ∧ bs = encode i ++ rest

/-- The words that name no instruction are those listed in 30_encoding.md section 4 (the derived rule R97),
and every other word decodes. -/
def Obligations.UnknownWordsAreThoseListed : Prop :=
  ∀ w : Word,
    let op := w.toNat / 4096
    let n := w.toNat % 16
    let nn := w.toNat % 256
    let listed := (op = 5 ∧ n ≠ 0) ∨ (op = 8 ∧ n ∈ [8, 9, 10, 11, 12, 13, 15]) ∨ (op = 9 ∧ n ≠ 0) ∨
      (op = 14 ∧ nn ∉ [0x9E, 0xA1]) ∨
      (op = 15 ∧ nn ∉ [0x07, 0x0A, 0x15, 0x18, 0x1E, 0x29, 0x33, 0x55, 0x65])
    (listed → decodeWord w = .error (.unknown w)) ∧ (¬ listed → ∃ i, decodeWord w = .ok i)

/-- Instruction words written out from the patterns of 30_encoding.md section 3 decode to what they stand for,
and 912F, whose n is not 0, names no instruction (sections 2 and 4).  The exact match of 00E0 is the spec's
decision D6 and the n = 0 test of 9xy0 its decision D7. -/
def Obligations.WrittenOutWordsDecode : Prop :=
  decode [0x00#8, 0xE0#8] = .ok (.cls, []) ∧
  decode [0x22#8, 0x0C#8] = .ok (.call 0x20C#12, []) ∧
  decode [0x3A#8, 0x08#8] = .ok (.seImm 10 0x08#8, []) ∧
  decode [0x81#8, 0x25#8] = .ok (.subReg 1 2, []) ∧
  decode [0xD1#8, 0x25#8] = .ok (.drw 1 2 5, []) ∧
  decode [0xF2#8, 0x65#8] = .ok (.loadRegs 2, []) ∧
  decode [0xE5#8, 0x9E#8] = .ok (.skp 5, []) ∧
  decode [0x91#8, 0x2F#8] = .error (.unknown 0x912F#16)

/-! ### The cycle -/

/-- A step runs the decoded instruction (10_state.md section 10, the decided rule R36): where the two bytes at
`pc` decode to `i` and the CORE may cycle, the step is `exec i` on the state with the keys latched and
`refresh` cleared, and then the end of the cycle.  It is so with no host turn left, and where the host's next
turn lets one cycle pass (the schedule of turns is the model's, notes/assumptions/5.md). -/
def Obligations.StepRunsDecodedInstruction : Prop :=
  ∀ (s : State) (i : Instr), s.canCycle = true → s.pc.toNat < 0xFFF →
    decode [s.peek s.pc.toNat, s.peek (s.pc.toNat + 1)] = .ok (i, []) →
    (s.host = [] → step s = finishCycle s (exec i { s with key := s.keyBuf, refresh := false })) ∧
    (∀ rest, s.host = .cycle :: rest →
      step s = finishCycle { s with host := rest }
        (exec i { s with host := rest, key := s.keyBuf, refresh := false })) ∧
    (∀ t, finishCycle s (.next t) = .next (endCycle s t))

/-- A cycle that did not fault ends with the frame, if one was asked for, and then the decay of both timers
(60_exceptions.md sections 3 and 4; that the decay follows the frame is the spec's decision D20, and outputs as a
log are the model's, notes/assumptions/6.md). -/
def Obligations.CycleEndsWithFrameThenDecay : Prop :=
  ∀ before after : State, after.fault = none →
    endCycle before after =
      { after with
        out := after.out ++ (if after.refresh then [.frame after.fb] else [])
        dt := timerAfterCycle after.cfg.timerMode after.dt
        st := timerAfterCycle after.cfg.timerMode after.st }

/-- The fetch is the big-endian word at `pc`, `pc + 1`, and faults exactly when pc ≥ 0xFFF (20_memory.md
section 1).  The step of a cycle whose fetch faults takes the fault and nothing else: the record has no word
(the spec's decision D4), the latch has its new copy (10_state.md section 10, decision D34), there is no frame and
no decay (decisions D12, D20), `refresh` is as it was (notes/assumptions/9.md), and the report is in the log
(notes/assumptions/6.md). -/
def Obligations.FetchIsBigEndianAndFaultsPastTop : Prop :=
  ∀ s : State,
    (s.pc.toNat < 0xFFF → ∃ w, s.fetch = .ok w ∧
      w.toNat = (s.peek s.pc.toNat).toNat * 256 + (s.peek (s.pc.toNat + 1)).toNat) ∧
    (s.pc.toNat ≥ 0xFFF → s.fetch = .error (s.pc.toNat + 1)) ∧
    (∀ rest, s.pc.toNat ≥ 0xFFF → s.canCycle = true → s.CyclesNext rest →
      step s = .next (State.afterFault { s with host := rest, key := s.keyBuf }
        ⟨.addressOutOfRange, s.pc, none, some (s.pc.toNat + 1)⟩))

/-- An UNKNOWN word follows UNKNOWN_OPCODE_POLICY (60_exceptions.md section 1; the spec's decisions D5, D41):
under `skip` a diagnostic, `pc + 2`, no refresh and the decay (decisions D19, D20); under `halt` the fault, with no
decay and `refresh` as it was (decisions D12, D20; notes/assumptions/9.md).  The latch has its new copy either way
(10_state.md section 10, decision D34), and the output is in the log (notes/assumptions/6.md). -/
def Obligations.UnknownWordFollowsPolicy : Prop :=
  ∀ (s : State) (rest : List Turn) (w : Word), s.canCycle = true → s.CyclesNext rest → s.fetch = .ok w →
    decodeWord w = .error (.unknown w) →
    (s.cfg.unknownOpcode = .skip →
      step s = .next { s with
        host := rest, key := s.keyBuf, refresh := false, pc := s.pc + 2
        out := s.out ++ [.unknownOpcode s.pc w]
        dt := timerAfterCycle s.cfg.timerMode s.dt
        st := timerAfterCycle s.cfg.timerMode s.st }) ∧
    (s.cfg.unknownOpcode = .halt →
      step s = .next (State.afterFault { s with host := rest, key := s.keyBuf }
        ⟨.unknownOpcode, s.pc, some w, none⟩))

/-- Where no cycle is enabled, a step that would be a cycle keeps all state, but that a turn the host gave it is
over (60_exceptions.md section 5; the model's reading, notes/assumptions/7.md). -/
def Obligations.DisabledStepKeepsState : Prop :=
  ∀ (s : State) (rest : List Turn), s.canCycle = false → s.CyclesNext rest →
    step s = .next { s with host := rest } ∧ (s.host = [] → step s = .next s)

/-- A cycle that faults leaves every piece of state as it was, but for the key latch, the record, the report and
Stopped (60_exceptions.md section 1 and 10_state.md section 10; the spec's decisions D4, D12, D20, D34; that
`refresh` is put back, that the report goes to a log and that a turn of the schedule is over are the model's,
notes/assumptions/9.md, 6.md and 5.md).  The record names the instruction's own `pc`, the word fetched (none where
the fetch faulted), and an address for the kinds AddressOutOfRange and FontRegionWrite alone (60_exceptions.md
section 1).  No cycle is enabled then, and a step that would be one changes nothing but the schedule.  A record
stays until an admitted load, which leaves the CORE Loaded where the program fits and Unloaded where it does not
(decisions D24, D27, D38; notes/assumptions/17.md). -/
def Obligations.FaultingCycleHasNoOtherEffect : Prop :=
  (∀ (s t : State) (rest : List Turn), s.canCycle = true → s.CyclesNext rest → step s = .next t →
    t.fault ≠ none →
    ∃ r : FaultRecord, t = State.afterFault { s with host := rest, key := s.keyBuf } r ∧ r.pc = s.pc ∧
      (∀ w, s.fetch = .ok w → r.word = some w) ∧ (∀ a, s.fetch = .error a → r.word = none) ∧
      (r.address ≠ none ↔ r.kind = .addressOutOfRange ∨ r.kind = .fontRegionWrite) ∧
      t.canCycle = false ∧ ∀ rest', t.CyclesNext rest' → step t = .next { t with host := rest' }) ∧
  (∀ s t : State, s.fault ≠ none → step s = .next t →
    t.fault = s.fault ∨
    ∃ bytes rest, s.host = .act (.loadProgram bytes) :: rest ∧ s.mstate ≠ .running ∧ t.fault = none ∧
      t.mstate = if bytes.length ≤ 3584 then .loaded else .unloaded)

/-- No instruction and no step stops the machine outside its own state: each answers a next state
(60_exceptions.md section 1: even a fault is a state, Stopped with its record; notes/assumptions/1.md). -/
def Obligations.EveryStepAnswersNext : Prop :=
  (∀ (i : Instr) (s : State), ∃ t, exec i s = .next t) ∧ (∀ s : State, ∃ t, step s = .next t)

/-! ### Display -/

/-- R120: CLS clears every cell, requests a refresh, keeps all else but `pc + 2`; and its cycle emits the
all-zero frame, on an already clear framebuffer too. -/
def Obligations.ClsClearsEveryCell : Prop :=
  decodeWord 0x00E0#16 = .ok .cls ∧
  ∀ s : State,
    (∃ t, exec .cls s = .next t ∧ t = { s with fb := t.fb, refresh := true, pc := s.pc + 2 } ∧
      ∀ k, pixelAt t.fb k = false) ∧
    (∀ rest, s.canCycle = true → s.CyclesNext rest → s.fetch = .ok 0x00E0#16 →
      ∃ t, step s = .next t ∧ t.out = s.out ++ [.frame t.fb] ∧ ∀ k, pixelAt t.fb k = false)

/-- DRW, where every sprite byte lies in memory (40_display.md section 2; bit order and XOR of set bits are
the spec's decisions D21, D22): a cell changes iff a set sprite pixel lands in it, VF is 1 iff such a cell was
on and 0 otherwise, a refresh is requested, and nothing else but `pc + 2` changes. -/
def Obligations.DrwXorsSpriteAndReportsCollision : Prop :=
  ∀ (x y : Reg) (n : Fin 16) (s : State), n = 0 ∨ s.i.toNat + n.val ≤ 4096 →
    ∃ t, exec (.drw x y n) s = .next t ∧
      t = { s with fb := t.fb, v := t.v, refresh := true, pc := s.pc + 2 } ∧
      (∀ k, SpriteLights s x y n k → pixelAt t.fb k = !pixelAt s.fb k) ∧
      (∀ k, ¬ SpriteLights s x y n k → pixelAt t.fb k = pixelAt s.fb k) ∧
      (∀ r : Reg, r ≠ 15 → t.getV r = s.getV r) ∧
      ((∃ k, SpriteLights s x y n k ∧ pixelAt s.fb k = true) → t.getV 15 = 1#8) ∧
      ((¬ ∃ k, SpriteLights s x y n k ∧ pixelAt s.fb k = true) → t.getV 15 = 0#8)

/-- No two pixels of one sprite share a cell (40_display.md section 2, the derived rule R123). -/
def Obligations.SpritePixelsLandInDistinctCells : Prop :=
  ∀ px py r c r' c' : Nat, r ≤ 14 → r' ≤ 14 → c ≤ 7 → c' ≤ 7 →
    cellAt (px + c) (py + r) = cellAt (px + c') (py + r') → r = r' ∧ c = c'

/-! ### Control flow -/

/-- R140: RET pops the return address into `pc`, with no check of it; on an empty stack it takes
StackUnderflow and `pc`, `sp` and the stack are unchanged. -/
def Obligations.RetPopsOrUnderflows : Prop :=
  decodeWord 0x00EE#16 = .ok .ret ∧
  ∀ s : State,
    (∀ j : Fin 16, s.sp = j.succ →
      exec .ret s = .next { s with pc := s.stack[j], sp := j.castSucc } ∧
      (0xFFE < s.stack[j].toNat →
        State.fetch { s with pc := s.stack[j], sp := j.castSucc } = .error (s.stack[j].toNat + 1))) ∧
    (s.sp = 0 → exec .ret s = .next (s.afterFault ⟨.stackUnderflow, s.pc, some 0x00EE#16, none⟩))

/-- CALL pushes `pc + 2` and jumps, sixteen deep; on a full stack it takes StackOverflow and `pc`, `sp` and
the stack are unchanged (41_control_flow.md, CALL; 10_state.md section 5). -/
def Obligations.CallPushesOrOverflows : Prop :=
  ∀ (nnn : Addr) (s : State),
    (∀ j : Fin 16, s.sp = j.castSucc →
      exec (.call nnn) s = .next { s with
        stack := s.stack.set j (s.pc + 2), sp := j.succ, pc := BitVec.ofNat 16 nnn.toNat }) ∧
    (s.sp = 16 →
      exec (.call nnn) s =
        .next (s.afterFault ⟨.stackOverflow, s.pc, some (0x2#4 ++ nnn), none⟩))

/-- JP writes `pc` alone, whatever the target; the target 0xFFF makes the next fetch fault; and a jump to its own
address is a cycle that changes nothing but the latch and the timers, the CORE still Running (41_control_flow.md,
JP).  In that cycle the latch copy is the spec's decision D34 and the decay of TIMER_MODE its decisions D19 and D20
(10_state.md section 10; 60_exceptions.md section 3), and `refresh` is cleared (10_state.md section 9). -/
def Obligations.JpJumpsAnywhere : Prop :=
  ∀ (nnn : Addr) (s : State),
    decodeWord (0x1#4 ++ nnn) = .ok (.jp nnn) ∧
    exec (.jp nnn) s = .next { s with pc := BitVec.ofNat 16 nnn.toNat } ∧
    (nnn = 0xFFF#12 → State.fetch { s with pc := BitVec.ofNat 16 nnn.toNat } = .error 0x1000) ∧
    (∀ rest, s.canCycle = true → s.CyclesNext rest → s.fetch = .ok (0x1#4 ++ nnn) → s.pc.toNat = nnn.toNat →
      step s = .next { s with
        host := rest, key := s.keyBuf, refresh := false
        dt := timerAfterCycle s.cfg.timerMode s.dt
        st := timerAfterCycle s.cfg.timerMode s.st })

/-- JP V0 writes `pc` alone, with the exact sum of `nnn` and V0 (41_control_flow.md, JP V0, which the spec
marks as general knowledge and decision D35). -/
def Obligations.JpV0AddsV0Unreduced : Prop :=
  ∀ (nnn : Addr) (s : State), ∃ t, exec (.jpV0 nnn) s = .next t ∧ t = { s with pc := t.pc } ∧
    t.pc.toNat = nnn.toNat + (s.getV 0).toNat

/-- SYS runs as an unrecognized opcode (41_control_flow.md, SYS; the spec's decision D6 and general
knowledge): a diagnostic and `pc + 2` under `skip`, the fault under `halt`. -/
def Obligations.SysRunsAsUnknownOpcode : Prop :=
  ∀ (nnn : Addr) (s : State),
    (s.cfg.unknownOpcode = .skip →
      exec (.sys nnn) s =
        .next { s with pc := s.pc + 2, out := s.out ++ [.unknownOpcode s.pc (0x0#4 ++ nnn)] }) ∧
    (s.cfg.unknownOpcode = .halt →
      exec (.sys nnn) s = .next (s.afterFault ⟨.unknownOpcode, s.pc, some (0x0#4 ++ nnn), none⟩))

/-! ### Skips -/

/-- R160 and R161: SE and SNE with an immediate add 4 to `pc` on equal and on different values, else 2, and
change nothing else. -/
def Obligations.ImmediateSkipsCompareAndAdvance : Prop :=
  ∀ (x : Reg) (nn : Byte) (s : State),
    decodeWord (0x3#4 ++ nibble x ++ nn) = .ok (.seImm x nn) ∧
    decodeWord (0x4#4 ++ nibble x ++ nn) = .ok (.sneImm x nn) ∧
    exec (.seImm x nn) s = .next { s with pc := if s.getV x = nn then s.pc + 4 else s.pc + 2 } ∧
    exec (.sneImm x nn) s = .next { s with pc := if s.getV x ≠ nn then s.pc + 4 else s.pc + 2 }

/-- SE and SNE with a register (42_skips.md; that n must be 0 is the spec's decision D7). -/
def Obligations.RegisterSkipsCompareAndAdvance : Prop :=
  ∀ (x y : Reg) (s : State),
    exec (.seReg x y) s = .next { s with pc := if s.getV x = s.getV y then s.pc + 4 else s.pc + 2 } ∧
    exec (.sneReg x y) s = .next { s with pc := if s.getV x ≠ s.getV y then s.pc + 4 else s.pc + 2 }

/-! ### Register loads and arithmetic -/

/-- R180: LD Vx, nn loads the immediate, VF like any register, and changes nothing else but `pc + 2`. -/
def Obligations.LdImmLoadsTheImmediate : Prop :=
  ∀ (x : Reg) (nn : Byte) (s : State),
    decodeWord (0x6#4 ++ nibble x ++ nn) = .ok (.ldImm x nn) ∧
    exec (.ldImm x nn) s = .next { s with v := s.v.set x nn, pc := s.pc + 2 }

/-- R181: ADD Vx, nn is modulo 256, touches no flag, and changes nothing else but `pc + 2`. -/
def Obligations.AddImmWrapsWithoutFlag : Prop :=
  ∀ (x : Reg) (nn : Byte) (s : State),
    decodeWord (0x7#4 ++ nibble x ++ nn) = .ok (.addImm x nn) ∧
    ∃ t, exec (.addImm x nn) s = .next t ∧ t = { s with v := t.v, pc := s.pc + 2 } ∧
      (t.getV x).toNat = ((s.getV x).toNat + nn.toNat) % 256 ∧
      ∀ r : Reg, r ≠ x → t.getV r = s.getV r

/-- LD, OR, AND and XOR Vx, Vy write Vx bit by bit and nothing else but `pc + 2`, VF untouched unless it is Vx
(43_alu.md section 3; the spec's decision D8, and general knowledge for the direction of LD). -/
def Obligations.LogicOperationsWriteVxAlone : Prop :=
  ∀ (x y : Reg) (s : State),
    exec (.ldReg x y) s = .next { s with v := s.v.set x (s.getV y), pc := s.pc + 2 } ∧
    (∃ t, exec (.orReg x y) s = .next t ∧ t = { s with v := t.v, pc := s.pc + 2 } ∧
      (∀ b, (t.getV x).getLsbD b = ((s.getV x).getLsbD b || (s.getV y).getLsbD b)) ∧
      ∀ r : Reg, r ≠ x → t.getV r = s.getV r) ∧
    (∃ t, exec (.andReg x y) s = .next t ∧ t = { s with v := t.v, pc := s.pc + 2 } ∧
      (∀ b, (t.getV x).getLsbD b = ((s.getV x).getLsbD b && (s.getV y).getLsbD b)) ∧
      ∀ r : Reg, r ≠ x → t.getV r = s.getV r) ∧
    (∃ t, exec (.xorReg x y) s = .next t ∧ t = { s with v := t.v, pc := s.pc + 2 } ∧
      (∀ b, (t.getV x).getLsbD b = ((s.getV x).getLsbD b != (s.getV y).getLsbD b)) ∧
      ∀ r : Reg, r ≠ x → t.getV r = s.getV r)

/-- ADD Vx, Vy leaves the sum modulo 256 and the carry, both operands read first (43_alu.md sections 2 and 3);
where x is F, the order VF_ORDER gives is the spec's decision D10. -/
def Obligations.AddSetsCarry : Prop :=
  ∀ (x y : Reg) (s : State),
    decodeWord (0x8#4 ++ nibble x ++ nibble y ++ 0x4#4) = .ok (.addReg x y) ∧
    ∃ t, exec (.addReg x y) s = .next t ∧
      LeavesResultAndFlag s t x (((s.getV x).toNat + (s.getV y).toNat) % 256)
        (if (s.getV x).toNat + (s.getV y).toNat > 255 then 1 else 0)

/-- SUB Vx, Vy leaves the difference modulo 256 and NOT borrow, both operands read first (43_alu.md sections 2
and 3); where x is F, the order VF_ORDER gives is the spec's decision D10. -/
def Obligations.SubSetsNotBorrow : Prop :=
  ∀ (x y : Reg) (s : State),
    decodeWord (0x8#4 ++ nibble x ++ nibble y ++ 0x5#4) = .ok (.subReg x y) ∧
    ∃ t, exec (.subReg x y) s = .next t ∧
      LeavesResultAndFlag s t x (((s.getV x).toNat + 256 - (s.getV y).toNat) % 256)
        (if (s.getV y).toNat > (s.getV x).toNat then 0 else 1)

/-- SUBN Vx, Vy leaves Vy - Vx modulo 256 and NOT borrow (43_alu.md section 3; the operand order is marked as
general knowledge, and the order where x is F is decision D10). -/
def Obligations.SubnSetsNotBorrow : Prop :=
  ∀ (x y : Reg) (s : State),
    ∃ t, exec (.subnReg x y) s = .next t ∧
      LeavesResultAndFlag s t x (((s.getV y).toNat + 256 - (s.getV x).toNat) % 256)
        (if (s.getV x).toNat > (s.getV y).toNat then 0 else 1)

/-- SHR and SHL shift Vx by one and leave the bit shifted out in VF, whatever y (43_alu.md section 3; the
spec's decisions D9 and D10). -/
def Obligations.ShiftsCaptureTheBitShiftedOut : Prop :=
  ∀ (x y : Reg) (s : State),
    (∃ t, exec (.shr x y) s = .next t ∧
      LeavesResultAndFlag s t x ((s.getV x).toNat / 2) ((s.getV x).toNat % 2)) ∧
    (∃ t, exec (.shl x y) s = .next t ∧
      LeavesResultAndFlag s t x ((s.getV x).toNat * 2 % 256) ((s.getV x).toNat / 128))

/-- RND takes one fresh draw, keeps the bits of nn, clears the others, and changes nothing else but `pc + 2`
(43_alu.md section 4; the spec's decision D23).  The draw is a free value: the statement holds for every one
(notes/assumptions/4.md). -/
def Obligations.RndMasksAFreshDraw : Prop :=
  ∀ (x : Reg) (nn : Byte) (s : State), ∃ t, exec (.rnd x nn) s = .next t ∧
    t = { s with v := t.v, pc := s.pc + 2, draws := s.draws + 1 } ∧
    (∀ b, (t.getV x).getLsbD b = ((Config.randomByte s.draws).getLsbD b && nn.getLsbD b)) ∧
    ∀ r : Reg, r ≠ x → t.getV r = s.getV r

/-! ### The address register and memory -/

/-- R210: LD I, nnn loads the twelve bits, so I is at most 0xFFF, and changes nothing else but `pc + 2`. -/
def Obligations.LdILoadsTheAddress : Prop :=
  ∀ (nnn : Addr) (s : State),
    decodeWord (0xA#4 ++ nnn) = .ok (.ldI nnn) ∧
    ∃ t, exec (.ldI nnn) s = .next t ∧ t = { s with i := t.i, pc := s.pc + 2 } ∧
      t.i.toNat = nnn.toNat ∧ t.i.toNat ≤ 0xFFF

/-- ADD I, Vx is modulo 65536 and touches no flag (44_index_memory.md, ADD I; general knowledge and the
spec's decision D11). -/
def Obligations.AddIWrapsAt16Bits : Prop :=
  ∀ (x : Reg) (s : State), ∃ t, exec (.addI x) s = .next t ∧ t = { s with i := t.i, pc := s.pc + 2 } ∧
    t.i.toNat = (s.i.toNat + (s.getV x).toNat) % 65536

/-- LD F points I at the glyph of a digit; past 0xF it follows FONT_INDEX_POLICY (44_index_memory.md, LD F;
general knowledge and the spec's decisions D15, D16). -/
def Obligations.LdFPointsAtTheGlyph : Prop :=
  ∀ (x : Reg) (s : State),
    ((s.getV x).toNat ≤ 15 →
      exec (.ldF x) s = .next { s with i := BitVec.ofNat 16 (5 * (s.getV x).toNat), pc := s.pc + 2 }) ∧
    (15 < (s.getV x).toNat → s.cfg.fontIndex = .lowNibble →
      exec (.ldF x) s = .next { s with i := BitVec.ofNat 16 (5 * ((s.getV x).toNat % 16)), pc := s.pc + 2 }) ∧
    (15 < (s.getV x).toNat → s.cfg.fontIndex = .fault →
      exec (.ldF x) s =
        .next (s.afterFault ⟨.fontIndexOutOfRange, s.pc, some (0xF#4 ++ nibble x ++ 0x29#8), none⟩))

/-- LD B stores the three decimal digits at I, I+1, I+2, keeps I and every other byte, and changes nothing
else but `pc + 2`, where all three addresses may be written (44_index_memory.md, LD B; that I is kept is the
spec's decision D37). -/
def Obligations.LdBStoresDecimalDigits : Prop :=
  ∀ (x : Reg) (s : State), s.mem.wf s.cfg.font = true → s.i.toNat + 2 ≤ 0xFFF →
    0x04F < s.i.toNat ∨ s.cfg.fontWrite = .write →
    ∃ t, exec (.ldB x) s = .next t ∧ t = { s with mem := t.mem, pc := s.pc + 2 } ∧
      (t.peek s.i.toNat).toNat = (s.getV x).toNat / 100 ∧
      (t.peek (s.i.toNat + 1)).toNat = (s.getV x).toNat / 10 % 10 ∧
      (t.peek (s.i.toNat + 2)).toNat = (s.getV x).toNat % 10 ∧
      ∀ a, a < s.i.toNat ∨ s.i.toNat + 3 ≤ a → t.peek a = s.peek a

/-- LD [I], Vx stores V0..Vx at I..I+x, keeps every other byte, adds x + 1 to I, and changes nothing else but
`pc + 2`, where all the addresses may be written (44_index_memory.md, LD [I]). -/
def Obligations.StoreRegsStoresV0ToVx : Prop :=
  ∀ (x : Reg) (s : State), s.mem.wf s.cfg.font = true → s.i.toNat + x.val ≤ 0xFFF →
    0x04F < s.i.toNat ∨ s.cfg.fontWrite = .write →
    ∃ t, exec (.storeRegs x) s = .next t ∧ t = { s with mem := t.mem, i := t.i, pc := s.pc + 2 } ∧
      t.i.toNat = s.i.toNat + x.val + 1 ∧
      (∀ r : Reg, r ≤ x → t.peek (s.i.toNat + r.val) = s.getV r) ∧
      ∀ a, a < s.i.toNat ∨ s.i.toNat + x.val + 1 ≤ a → t.peek a = s.peek a

/-- LD Vx, [I] loads V0..Vx from I..I+x, keeps the other registers, adds x + 1 to I, and changes nothing else
but `pc + 2`, where all the addresses exist (44_index_memory.md, LD Vx, [I]). -/
def Obligations.LoadRegsLoadsV0ToVx : Prop :=
  ∀ (x : Reg) (s : State), s.i.toNat + x.val ≤ 0xFFF →
    ∃ t, exec (.loadRegs x) s = .next t ∧ t = { s with v := t.v, i := t.i, pc := s.pc + 2 } ∧
      t.i.toNat = s.i.toNat + x.val + 1 ∧
      (∀ r : Reg, r ≤ x → t.getV r = s.peek (s.i.toNat + r.val)) ∧
      ∀ r : Reg, x < r → t.getV r = s.getV r

/-- A sprite or a bulk load that passes the top of memory takes AddressOutOfRange at the first address past
0xFFF, and has no other effect (20_memory.md section 2, the spec's decision D12). -/
def Obligations.ReadsPastTheTopFault : Prop :=
  ∀ (x y : Reg) (n : Fin 16) (s : State),
    (s.i.toNat + x.val > 0xFFF →
      exec (.loadRegs x) s = .next (s.afterFault
        ⟨.addressOutOfRange, s.pc, some (0xF#4 ++ nibble x ++ 0x65#8), some (max s.i.toNat 0x1000)⟩)) ∧
    (n ≠ 0 → s.i.toNat + n.val > 0x1000 →
      exec (.drw x y n) s = .next (s.afterFault
        ⟨.addressOutOfRange, s.pc, some (0xD#4 ++ nibble x ++ nibble y ++ nibble n),
          some (max s.i.toNat 0x1000)⟩))

/-- A store that passes the top of memory takes AddressOutOfRange at the first address past 0xFFF; one that
starts in the font region takes FontRegionWrite at I where FONT_WRITE_POLICY is `fault`; neither has another
effect (20_memory.md sections 1 and 2, the spec's decisions D12, D13). -/
def Obligations.StoresOutsideWritableMemoryFault : Prop :=
  ∀ (x : Reg) (s : State),
    (s.i.toNat + 2 > 0xFFF →
      exec (.ldB x) s = .next (s.afterFault
        ⟨.addressOutOfRange, s.pc, some (0xF#4 ++ nibble x ++ 0x33#8), some (max s.i.toNat 0x1000)⟩)) ∧
    (s.i.toNat ≤ 0x04F → s.cfg.fontWrite = .fault →
      exec (.ldB x) s = .next (s.afterFault
        ⟨.fontRegionWrite, s.pc, some (0xF#4 ++ nibble x ++ 0x33#8), some s.i.toNat⟩)) ∧
    (s.i.toNat + x.val > 0xFFF →
      exec (.storeRegs x) s = .next (s.afterFault
        ⟨.addressOutOfRange, s.pc, some (0xF#4 ++ nibble x ++ 0x55#8), some (max s.i.toNat 0x1000)⟩)) ∧
    (s.i.toNat ≤ 0x04F → s.cfg.fontWrite = .fault →
      exec (.storeRegs x) s = .next (s.afterFault
        ⟨.fontRegionWrite, s.pc, some (0xF#4 ++ nibble x ++ 0x55#8), some s.i.toNat⟩))

/-- A word stored just after the storing instruction is the word the next cycle fetches (20_memory.md
section 4, the spec's decision D33). -/
def Obligations.StoredWordIsFetchedNext : Prop :=
  ∀ (x : Reg) (s : State), s.mem.wf s.cfg.font = true → 1 ≤ x.val → s.i = s.pc + 2 →
    s.i.toNat + x.val ≤ 0xFFF → 0x04F < s.i.toNat ∨ s.cfg.fontWrite = .write →
    ∃ t, exec (.storeRegs x) s = .next t ∧ t.fetch = .ok (joinBytes (s.getV 0) (s.getV 1))

/-! ### Keys and timers -/

/-- SKP and SKNP look up in the latch the key that Vx names and add 4 to `pc` where it is down, or up, else 2
(45_keys_timers.md; past 0xF the spec's decision D14: the low nibble under that policy). -/
def Obligations.KeySkipsReadTheLatch : Prop :=
  ∀ (x : Reg) (k : Key) (s : State), k.val = (s.getV x).toNat % 16 →
    (s.getV x).toNat ≤ 15 ∨ s.cfg.keyIndex = .lowNibble →
    exec (.skp x) s = .next { s with pc := if s.key[k] = true then s.pc + 4 else s.pc + 2 } ∧
    exec (.sknp x) s = .next { s with pc := if s.key[k] = false then s.pc + 4 else s.pc + 2 }

/-- Under KEY_INDEX_POLICY `fault`, a key skip with Vx past 0xF takes KeyIndexOutOfRange and has no other effect
(45_keys_timers.md, the spec's decision D14). -/
def Obligations.KeySkipsFaultPastSixteenKeys : Prop :=
  ∀ (x : Reg) (s : State), 15 < (s.getV x).toNat → s.cfg.keyIndex = .fault →
    exec (.skp x) s =
      .next (s.afterFault ⟨.keyIndexOutOfRange, s.pc, some (0xE#4 ++ nibble x ++ 0x9E#8), none⟩) ∧
    exec (.sknp x) s =
      .next (s.afterFault ⟨.keyIndexOutOfRange, s.pc, some (0xE#4 ++ nibble x ++ 0xA1#8), none⟩)

/-- LD Vx, K takes the least key that is down; with none down it changes nothing, `pc` included
(45_keys_timers.md; the spec's decisions D17, D18). -/
def Obligations.KeyWaitTakesTheLeastKeyOrWaits : Prop :=
  ∀ (x : Reg) (s : State),
    (∀ k : Key, s.key[k] = true → (∀ j : Key, j < k → s.key[j] = false) →
      exec (.ldVxK x) s = .next { s with v := s.v.set x (BitVec.ofNat 8 k.val), pc := s.pc + 2 }) ∧
    ((∀ k : Key, s.key[k] = false) → exec (.ldVxK x) s = .next s)

/-- The timer moves: each copies one byte and changes nothing else but `pc + 2` (45_keys_timers.md; general
knowledge, the spec says). -/
def Obligations.TimerMovesCopyOneByte : Prop :=
  ∀ (x : Reg) (s : State),
    exec (.ldVxDt x) s = .next { s with v := s.v.set x s.dt, pc := s.pc + 2 } ∧
    exec (.ldDtVx x) s = .next { s with dt := s.getV x, pc := s.pc + 2 } ∧
    exec (.ldStVx x) s = .next { s with st := s.getV x, pc := s.pc + 2 }

/-! ### The host -/

/-- An admitted load that fits leaves the reset state with the program at 0x200 and FONT below it, Loaded,
with no fault (70_reset_and_hazards.md section 1; the spec's decisions D2, D26, D38).  The model's own choices are
that the parameters are kept (notes/assumptions/2.md), that the counter of draws is (4.md), that the load's turn is
over (5.md), and that the result Ok is one more output in the log, which is kept (6.md). -/
def Obligations.LoadProgramResetsAndCopies : Prop :=
  ∀ (s : State) (bytes : List Byte) (rest : List Turn), s.host = .act (.loadProgram bytes) :: rest →
    s.mstate ≠ .running → bytes.length ≤ 3584 →
    ∃ t, step s = .next t ∧
      t = { State.reset with
        mem := t.mem, mstate := .loaded, cfg := s.cfg, host := rest
        out := s.out ++ [.loadResult .ok], draws := s.draws } ∧
      t.mem.wf t.cfg.font = true ∧
      (∀ (k : Nat) (h : k < bytes.length), t.peek (0x200 + k) = bytes[k]) ∧
      (∀ a : Fin 80, t.peek a.val = s.cfg.font[a]) ∧
      ∀ a, 80 ≤ a → a < 0x200 ∨ 0x200 + bytes.length ≤ a → t.peek a = 0#8

/-- An admitted load that does not fit leaves the reset state, Unloaded, with no fault recorded, and answers
ProgramTooLarge, and a run() that follows is refused (70_reset_and_hazards.md section 1; 10_state.md section 10; the
spec's decisions D26, D27, D38; that the record is cleared here follows 90_conflicts.md C14, where other rules
speak of a successful load, notes/assumptions/17.md).  The model's own choices are that the parameters (2.md) and
the counter of draws (4.md) are kept, that a turn is over (5.md, 8.md), and that the result is one more output in
the log, which is kept (6.md). -/
def Obligations.LoadProgramTooLargeUnloads : Prop :=
  ∀ (s : State) (bytes : List Byte) (rest : List Turn), s.host = .act (.loadProgram bytes) :: rest →
    s.mstate ≠ .running → 3584 < bytes.length →
    ∃ t, step s = .next t ∧
      t = { State.reset with
        cfg := s.cfg, host := rest, out := s.out ++ [.loadResult .programTooLarge], draws := s.draws } ∧
      ∀ rest', rest = .act .run :: rest' → step t = .next { t with host := rest' }

/-- run() starts a Loaded or Stopped CORE that has no fault recorded, stop() stops a Running one, and neither
changes anything else; isRunning() answers and changes nothing else (10_state.md section 9; the spec's
decisions D24, D36; the answer as an output is the model's, notes/assumptions/6.md). -/
def Obligations.RunStopAndIsRunning : Prop :=
  ∀ (s : State) (rest : List Turn),
    (s.host = .act .run :: rest → s.mstate = .loaded ∨ s.mstate = .stopped → s.fault = none →
      step s = .next { s with host := rest, mstate := .running }) ∧
    (s.host = .act .stop :: rest → s.mstate = .running →
      step s = .next { s with host := rest, mstate := .stopped }) ∧
    (s.host = .act .isRunning :: rest → ∃ b, step s = .next { s with host := rest, out := s.out ++ [.running b] } ∧
      (b = true ↔ s.mstate = .running))

/-- A host action that is not admitted changes nothing but that its turn is over (60_exceptions.md section 4;
10_state.md section 9; the spec's decisions D24, D26; the model's reading, notes/assumptions/8.md). -/
def Obligations.ActionsNotAdmittedChangeNothing : Prop :=
  ∀ (s : State) (rest : List Turn),
    (s.host = .act .run :: rest → (s.mstate ≠ .loaded ∧ s.mstate ≠ .stopped) ∨ s.fault ≠ none →
      step s = .next { s with host := rest }) ∧
    (s.host = .act .stop :: rest → s.mstate ≠ .running → step s = .next { s with host := rest }) ∧
    (∀ bytes, s.host = .act (.loadProgram bytes) :: rest → s.mstate = .running →
      step s = .next { s with host := rest }) ∧
    (s.host = .act .tick :: rest → s.mstate ≠ .running ∨ s.cfg.timerMode = .perCycle →
      step s = .next { s with host := rest })

/-- A key event sets or clears the one flag its host code maps to, in every machine state, and an unmapped code
changes nothing (60_exceptions.md section 4; the spec's decisions D30, D40). -/
def Obligations.KeyEventsWriteOneFlag : Prop :=
  ∀ (s : State) (h : Nat) (rest : List Turn),
    (∀ k, translateKey s.cfg.hostKeymap h = some k →
      (s.host = .act (.keyDown h) :: rest →
        step s = .next { s with host := rest, keyBuf := s.keyBuf.set k true }) ∧
      (s.host = .act (.keyUp h) :: rest →
        step s = .next { s with host := rest, keyBuf := s.keyBuf.set k false })) ∧
    (translateKey s.cfg.hostKeymap h = none →
      s.host = .act (.keyDown h) :: rest ∨ s.host = .act (.keyUp h) :: rest →
      step s = .next { s with host := rest })

/-- Under `tick60` a tick while Running takes one from each timer that is not zero, and a cycle takes none
(60_exceptions.md section 3; the spec's decision D19). -/
def Obligations.TicksDecayTimersUnderTick60 : Prop :=
  ∀ (s : State) (rest : List Turn), s.cfg.timerMode = .tick60 → s.mstate = .running →
    (s.host = .act .tick :: rest →
      step s = .next { s with
        host := rest
        dt := if s.dt = 0#8 then 0#8 else s.dt - 1#8
        st := if s.st = 0#8 then 0#8 else s.st - 1#8 }) ∧
    (∀ before : State, s.fault = none → (endCycle before s).dt = s.dt ∧ (endCycle before s).st = s.st)

/-- From reset, a load that fits and a run() bring the CORE to a cycle that fetches the program's first word
(70_reset_and_hazards.md section 2; the spec's decision D2). -/
def Obligations.BootFetchesTheFirstWord : Prop :=
  ∀ (b0 b1 : Byte) (bytes : List Byte), bytes.length ≤ 3582 →
    ∃ u t, step { State.reset with host := [.act (.loadProgram (b0 :: b1 :: bytes)), .act .run] } = .next u ∧
      step u = .next t ∧ t.canCycle = true ∧ t.host = [] ∧ t.fetch = .ok (joinBytes b0 b1)

/-! ### Keys and timers as seen by instructions -/

/-- Every enabled cycle, scheduled by the host or not, copies the key buffer into the latch and leaves the buffer
itself to the host (10_state.md section 8, the spec's decision D34). -/
def Obligations.CycleLatchesTheKeyBuffer : Prop :=
  ∀ (s t : State) (rest : List Turn), s.canCycle = true → s.CyclesNext rest → step s = .next t →
    t.key = s.keyBuf ∧ t.keyBuf = s.keyBuf

/-- No instruction reads the live key buffer: with another buffer it does the same (10_state.md section 8). -/
def Obligations.InstructionsIgnoreTheLiveKeyBuffer : Prop :=
  ∀ (i : Instr) (s t : State) (kb : Vector Bool 16), exec i s = .next t →
    exec i { s with keyBuf := kb } = .next { t with keyBuf := kb }

/-- No instruction reads the sound timer: with another value every instruction but LD ST does the same
(10_state.md section 6). -/
def Obligations.NoInstructionReadsTheSoundTimer : Prop :=
  ∀ (i : Instr) (s t : State) (b : Byte), (∀ x, i ≠ .ldStVx x) → exec i s = .next t →
    exec i { s with st := b } = .next { t with st := b }

/-! ### Frames over all instructions -/

/-- Every general register but an instruction's destinations is unchanged; VF changes only by an instruction
that writes a flag or has VF among its destinations (10_state.md section 2). -/
def Obligations.RegistersOutsideDestinationsAreKept : Prop :=
  ∀ (i : Instr) (s t : State) (r : Reg), exec i s = .next t → mayWriteV i r = false →
    t.getV r = s.getV r

/-- Every byte of memory is unchanged but the bytes an instruction stores: three from I on for LD B, x + 1 from
I on for LD [I], none for any other (20_memory.md section 2). -/
def Obligations.BytesOutsideStoresAreKept : Prop :=
  ∀ (i : Instr) (s t : State) (a : Nat), exec i s = .next t →
    a < s.i.toNat ∨ s.i.toNat + storedBytes i ≤ a → t.peek a = s.peek a

/-- Every other piece of state is kept but by the instructions the spec names for it: I (10_state.md section 3),
the stack (section 5), the timers (section 6), the framebuffer (section 7) and `refresh` (section 9); no
instruction writes the keys, the parameters or the host's schedule. -/
def Obligations.OtherStateIsKept : Prop :=
  ∀ (i : Instr) (s t : State), exec i s = .next t →
    (mayWriteI i = false → t.i = s.i) ∧
    ((∀ nnn, i ≠ .call nnn) → t.stack = s.stack ∧ (i ≠ .ret → t.sp = s.sp)) ∧
    ((∀ x, i ≠ .ldDtVx x) → t.dt = s.dt) ∧
    ((∀ x, i ≠ .ldStVx x) → t.st = s.st) ∧
    ((∀ x y n, i ≠ .drw x y n) → i ≠ .cls → t.fb = s.fb ∧ t.refresh = s.refresh) ∧
    ((∀ x nn, i ≠ .rnd x nn) → t.draws = s.draws) ∧
    t.keyBuf = s.keyBuf ∧ t.key = s.key ∧ t.cfg = s.cfg ∧ t.host = s.host

/-- An instruction that takes a fault has no other effect, and one that does not keeps the machine control state
and emits nothing but the diagnostic of an unrecognized opcode (60_exceptions.md section 1). -/
def Obligations.InstructionFaultsArePrecise : Prop :=
  ∀ (i : Instr) (s t : State), exec i s = .next t →
    (∃ r : FaultRecord, r.pc = s.pc ∧ t = s.afterFault r) ∨
    (t.mstate = s.mstate ∧ t.fault = s.fault ∧
      (t.out = s.out ∨ ∃ w, t.out = s.out ++ [.unknownOpcode s.pc w]))

/-! ### Invariants -/

/-- Every step keeps the invariant: memory in canonical form, `pc` at most 0x10FE, return addresses at most
0x1000, a recorded fault only while Stopped (10_state.md sections 4 and 5; 60_exceptions.md section 1;
that no record outlives a load that does not fit, notes/assumptions/17.md). -/
def Obligations.StepKeepsTheInvariant : Prop :=
  ∀ s t : State, s.Inv → step s = .next t → t.Inv

/-- The invariant holds at reset. -/
def Obligations.ResetMeetsTheInvariant : Prop := State.reset.Inv

/-- Under FONT_WRITE_POLICY `fault`, no step changes the font table (20_memory.md sections 1 and 3; the spec's
decision D13). -/
def Obligations.StepKeepsTheFontUnderFaultPolicy : Prop :=
  ∀ s t : State, s.cfg.fontWrite = .fault → s.FontIntact → step s = .next t →
    t.FontIntact ∧ t.cfg = s.cfg

/-- Power-on: Unloaded, no fault, every register, timer, stack entry, cell, flag and latch bit zero, `pc` at
0x200, FONT at 0x000 and zeros elsewhere (70_reset_and_hazards.md section 1; the spec's decisions D2, D28), and the
six policy parameters at their defaults (00_scope.md section 3; the spec's decisions D5, D10, D13, D14, D15, D19).
The tables FONT and HOST_KEYMAP of the reset state are the model's (notes/assumptions/12.md and 3.md) and are not
stated here. -/
def Obligations.ResetLeavesWhatTheSpecSays : Prop :=
  State.reset.mstate = .unloaded ∧ State.reset.fault = none ∧ State.reset.refresh = false ∧
  (∀ r : Reg, State.reset.getV r = 0#8) ∧ State.reset.i = 0#16 ∧ State.reset.pc = 0x200#16 ∧
  State.reset.sp = 0 ∧ (∀ j : Fin 16, State.reset.stack[j] = 0#16) ∧
  State.reset.dt = 0#8 ∧ State.reset.st = 0#8 ∧
  (∀ k, pixelAt State.reset.fb k = false) ∧
  (∀ k : Key, State.reset.keyBuf[k] = false ∧ State.reset.key[k] = false) ∧
  (∀ a : Fin 80, State.reset.peek a.val = State.reset.cfg.font[a]) ∧
  (∀ a, 80 ≤ a → State.reset.peek a = 0#8) ∧
  State.reset.cfg.unknownOpcode = .skip ∧ State.reset.cfg.vfOrder = .flagThenResult ∧
  State.reset.cfg.fontWrite = .fault ∧ State.reset.cfg.keyIndex = .fault ∧
  State.reset.cfg.fontIndex = .fault ∧ State.reset.cfg.timerMode = .perCycle
end

