-- ==== Sys2Proof/Laws/Memory.lean ====
section
/-! SUPPORT. The laws of the AddressSpace list: a read after a write, what a write leaves alone, and that every
operation keeps the canonical form. -/

namespace Sys2Proof.Machine

theorem memFind_memInsert_ne {blank : Byte} {m : Memory} {a c : Nat} {v : Byte} (h : c ≠ a) :
    memFind (memInsert blank m a v) c = memFind m c := by
  induction m with
  | nil => by_cases hv : v = blank <;> simp [memInsert, memFind, hv, h]
  | cons e m ih =>
    obtain ⟨b, u⟩ := e
    by_cases hab : a < b
    · by_cases hv : v = blank <;> simp [memInsert, memFind, hab, hv, h]
    · by_cases he : a = b
      · subst he
        by_cases hv : v = blank <;> simp [memInsert, memFind, hv, h]
      · simp [memInsert, memFind, hab, he, ih]

/-- A write leaves every other address alone, in any list. -/
theorem memRead_memWrite_ne {font : Font} {m : Memory} {a c : Nat} {v : Byte} (h : c ≠ a) :
    memRead font (memWrite font m a v) c = memRead font m c := by
  simp [memRead, memWrite, memFind_memInsert_ne h]

theorem memWfFrom_cons {font : Font} {lo a : Nat} {u : Byte} {m : Memory} :
    memWfFrom font lo ((a, u) :: m) = true ↔
      lo ≤ a ∧ a < 4096 ∧ u ≠ blankByte font a ∧ memWfFrom font (a + 1) m = true := by
  simp [memWfFrom, and_assoc]

theorem memWfFrom_mono {font : Font} {lo hi : Nat} {m : Memory} (hle : lo ≤ hi)
    (h : memWfFrom font hi m = true) : memWfFrom font lo m = true := by
  cases m with
  | nil => rfl
  | cons e m =>
    obtain ⟨a, u⟩ := e
    rw [memWfFrom_cons] at h ⊢
    exact ⟨by omega, h.2⟩

theorem memFind_below {font : Font} {lo c : Nat} {m : Memory} (h : memWfFrom font lo m = true)
    (hc : c < lo) : memFind m c = none := by
  induction m generalizing lo with
  | nil => rfl
  | cons e m ih =>
    obtain ⟨a, u⟩ := e
    rw [memWfFrom_cons] at h
    have hne : c ≠ a := by omega
    simp [memFind, hne, ih h.2.2.2 (by omega)]

theorem memRead_memInsert_self {font : Font} {lo a : Nat} {v : Byte} {m : Memory}
    (h : memWfFrom font lo m = true) :
    (memFind (memInsert (blankByte font a) m a v) a).getD (blankByte font a) = v := by
  induction m generalizing lo with
  | nil => by_cases hv : v = blankByte font a <;> simp [memInsert, memFind, hv]
  | cons e m ih =>
    obtain ⟨b, u⟩ := e
    rw [memWfFrom_cons] at h
    by_cases hab : a < b
    · have hne : a ≠ b := by omega
      by_cases hv : v = blankByte font a
      · simp [memInsert, memFind, hab, hv, hne, memFind_below h.2.2.2 (by omega : a < b + 1)]
      · simp [memInsert, memFind, hab, hv]
    · by_cases he : a = b
      · subst he
        by_cases hv : v = blankByte font a
        · simp [memInsert, hv, memFind_below h.2.2.2 (by omega : a < a + 1)]
        · simp [memInsert, memFind, hv]
      · simpa [memInsert, memFind, hab, he] using ih h.2.2.2

/-- A read after a write to the same address gives the byte written. -/
theorem memRead_memWrite_self {font : Font} {m : Memory} {a : Nat} {v : Byte}
    (h : m.wf font = true) : memRead font (memWrite font m a v) a = v :=
  memRead_memInsert_self h

theorem memWfFrom_memInsert {font : Font} {lo a : Nat} {v : Byte} {m : Memory} (hlo : lo ≤ a)
    (ha : a < 4096) (h : memWfFrom font lo m = true) :
    memWfFrom font lo (memInsert (blankByte font a) m a v) = true := by
  induction m generalizing lo with
  | nil =>
    by_cases hv : v = blankByte font a
    · simp [memInsert, hv, memWfFrom]
    · simp [memInsert, hv, memWfFrom, hlo, ha]
  | cons e m ih =>
    obtain ⟨b, u⟩ := e
    have h' := memWfFrom_cons.1 h
    by_cases hab : a < b
    · by_cases hv : v = blankByte font a
      · simpa [memInsert, hab, hv] using h
      · simp only [memInsert, hab, hv, if_true, if_false, memWfFrom_cons]
        exact ⟨hlo, ha, hv, by omega, h'.2⟩
    · by_cases he : a = b
      · subst he
        by_cases hv : v = blankByte font a
        · simpa [memInsert, hv] using memWfFrom_mono (by omega) h'.2.2.2
        · simp only [memInsert, Nat.lt_irrefl, hv, if_true, if_false, memWfFrom_cons]
          exact ⟨hlo, ha, hv, h'.2.2.2⟩
      · simp only [memInsert, hab, he, if_false, memWfFrom_cons]
        exact ⟨h'.1, h'.2.1, h'.2.2.1, ih (by omega) h'.2.2.2⟩

/-- A write at an address that exists keeps the canonical form. -/
theorem memWrite_wf {font : Font} {m : Memory} {a : Nat} {v : Byte} (ha : a < 4096)
    (h : m.wf font = true) : (memWrite font m a v).wf font = true :=
  memWfFrom_memInsert (Nat.zero_le a) ha h

/-- Writing bytes at addresses that exist keeps the canonical form. -/
theorem memWriteBytes_wf {font : Font} {m : Memory} {a : Nat} {bs : List Byte}
    (ha : a + bs.length ≤ 4096) (h : m.wf font = true) : (memWriteBytes font m a bs).wf font = true := by
  induction bs generalizing m a with
  | nil => exact h
  | cons b bs ih =>
    simp only [List.length_cons] at ha
    exact ih (by omega) (memWrite_wf (by omega) h)

/-- Writing bytes leaves every address outside them alone, in any list. -/
theorem memRead_memWriteBytes_outside {font : Font} {m : Memory} {a c : Nat} {bs : List Byte}
    (hc : c < a ∨ a + bs.length ≤ c) :
    memRead font (memWriteBytes font m a bs) c = memRead font m c := by
  induction bs generalizing m a with
  | nil => rfl
  | cons b bs ih =>
    simp only [List.length_cons] at hc
    rw [memWriteBytes, ih (by omega), memRead_memWrite_ne (by omega)]

/-- After bytes are written, each of their addresses reads as its byte. -/
theorem memRead_memWriteBytes_inside {font : Font} {m : Memory} {a k : Nat} {bs : List Byte}
    (h : m.wf font = true) (ha : a + bs.length ≤ 4096) (hk : k < bs.length) :
    memRead font (memWriteBytes font m a bs) (a + k) = bs[k] := by
  induction bs generalizing m a k with
  | nil => simp at hk
  | cons b bs ih =>
    simp only [List.length_cons] at ha hk
    cases k with
    | zero =>
      rw [memWriteBytes, memRead_memWriteBytes_outside (by omega)]
      exact memRead_memWrite_self h
    | succ k =>
      have hwf := memWrite_wf (v := b) (by omega : a < 4096) h
      have := ih hwf (a := a + 1) (by omega) (k := k) (by omega)
      rw [memWriteBytes, show a + (k + 1) = a + 1 + k by omega, this]
      rfl

theorem memFind_of_wfFrom {font : Font} {lo a : Nat} {u : Byte} {m : Memory}
    (h : memWfFrom font lo m = true) (hf : memFind m a = some u) : lo ≤ a ∧ u ≠ blankByte font a := by
  induction m generalizing lo with
  | nil => simp [memFind] at hf
  | cons e m ih =>
    obtain ⟨b, w⟩ := e
    rw [memWfFrom_cons] at h
    by_cases he : a = b
    · subst he
      simp only [memFind, if_true, Option.some.injEq] at hf
      exact ⟨h.1, hf ▸ h.2.2.1⟩
    · simp only [memFind, he, if_false] at hf
      have := ih h.2.2.2 hf
      exact ⟨by omega, this.2⟩

/-- In the canonical form an address is listed exactly where it does not read as its blank byte. -/
theorem memFind_eq {font : Font} {m : Memory} (h : m.wf font = true) (a : Nat) :
    memFind m a = if memRead font m a = blankByte font a then none else some (memRead font m a) := by
  cases hf : memFind m a with
  | none => simp [memRead, hf]
  | some u => simp [memRead, hf, (memFind_of_wfFrom h hf).2]

theorem memWfFrom_ext {font : Font} {lo : Nat} {m n : Memory} (hm : memWfFrom font lo m = true)
    (hn : memWfFrom font lo n = true) (h : ∀ a, memFind m a = memFind n a) : m = n := by
  induction m generalizing n lo with
  | nil =>
    cases n with
    | nil => rfl
    | cons e n => have := h e.1; simp [memFind] at this
  | cons e m ih =>
    obtain ⟨a, u⟩ := e
    cases n with
    | nil => have := h a; simp [memFind] at this
    | cons f n =>
      obtain ⟨b, w⟩ := f
      rw [memWfFrom_cons] at hm hn
      have hab : a = b := by
        by_contra hne
        rcases Nat.lt_or_gt_of_ne hne with hlt | hgt
        · have := h a
          simp [memFind, hne, memFind_below hn.2.2.2 (by omega : a < b + 1)] at this
        · have := h b
          simp [memFind, Ne.symm hne, memFind_below hm.2.2.2 (by omega : b < a + 1)] at this
      subst hab
      have huw : u = w := by simpa [memFind] using h a
      subst huw
      congr 1
      refine ih hm.2.2.2 hn.2.2.2 fun c => ?_
      by_cases hc : c = a
      · subst hc
        rw [memFind_below hm.2.2.2 (by omega), memFind_below hn.2.2.2 (by omega)]
      · simpa [memFind, hc] using h c

/-- In the canonical form, memories that read alike everywhere are equal. -/
theorem memory_ext {font : Font} {m n : Memory} (hm : m.wf font = true) (hn : n.wf font = true)
    (h : ∀ a, memRead font m a = memRead font n a) : m = n :=
  memWfFrom_ext hm hn fun a => by rw [memFind_eq hm, memFind_eq hn, h]

@[simp] theorem memReadBytes_length {font : Font} {m : Memory} {a n : Nat} :
    (memReadBytes font m a n).length = n := by
  induction n generalizing a with
  | zero => rfl
  | succ n ih => simp [memReadBytes, ih]

/-- The `k`-th byte read is the byte at the `k`-th address. -/
theorem memReadBytes_getElem {font : Font} {m : Memory} {a n k : Nat} (hk : k < n) :
    (memReadBytes font m a n)[k]'(by simpa using hk) = memRead font m (a + k) := by
  induction n generalizing a k with
  | zero => omega
  | succ n ih =>
    cases k with
    | zero => simp [memReadBytes]
    | succ k =>
      simp only [memReadBytes, List.getElem_cons_succ]
      rw [ih (by omega), show a + 1 + k = a + (k + 1) by omega]

end Sys2Proof.Machine
end

