-- ==== Sys2Proof/Laws/State.lean ====
section
/-! SUPPORT. What each update of Machine/Ops.lean and Machine/Cycle.lean does to each field of State: one lemma
per field per update, so that no proof unfolds a record update. -/

namespace Sys2Proof.Machine

/-! `setV` -/

@[simp] theorem State.setV_v (s : State) (x : Reg) (b : Byte) : (s.setV x b).v = s.v.set x b := rfl
@[simp] theorem State.setV_i (s : State) (x : Reg) (b : Byte) : (s.setV x b).i = s.i := rfl
@[simp] theorem State.setV_pc (s : State) (x : Reg) (b : Byte) : (s.setV x b).pc = s.pc := rfl
@[simp] theorem State.setV_stack (s : State) (x : Reg) (b : Byte) : (s.setV x b).stack = s.stack := rfl
@[simp] theorem State.setV_sp (s : State) (x : Reg) (b : Byte) : (s.setV x b).sp = s.sp := rfl
@[simp] theorem State.setV_dt (s : State) (x : Reg) (b : Byte) : (s.setV x b).dt = s.dt := rfl
@[simp] theorem State.setV_st (s : State) (x : Reg) (b : Byte) : (s.setV x b).st = s.st := rfl
@[simp] theorem State.setV_fb (s : State) (x : Reg) (b : Byte) : (s.setV x b).fb = s.fb := rfl
@[simp] theorem State.setV_keyBuf (s : State) (x : Reg) (b : Byte) : (s.setV x b).keyBuf = s.keyBuf := rfl
@[simp] theorem State.setV_key (s : State) (x : Reg) (b : Byte) : (s.setV x b).key = s.key := rfl
@[simp] theorem State.setV_mstate (s : State) (x : Reg) (b : Byte) : (s.setV x b).mstate = s.mstate := rfl
@[simp] theorem State.setV_fault (s : State) (x : Reg) (b : Byte) : (s.setV x b).fault = s.fault := rfl
@[simp] theorem State.setV_refresh (s : State) (x : Reg) (b : Byte) : (s.setV x b).refresh = s.refresh := rfl
@[simp] theorem State.setV_mem (s : State) (x : Reg) (b : Byte) : (s.setV x b).mem = s.mem := rfl
@[simp] theorem State.setV_cfg (s : State) (x : Reg) (b : Byte) : (s.setV x b).cfg = s.cfg := rfl
@[simp] theorem State.setV_host (s : State) (x : Reg) (b : Byte) : (s.setV x b).host = s.host := rfl
@[simp] theorem State.setV_out (s : State) (x : Reg) (b : Byte) : (s.setV x b).out = s.out := rfl
@[simp] theorem State.setV_draws (s : State) (x : Reg) (b : Byte) : (s.setV x b).draws = s.draws := rfl
@[simp] theorem State.setV_peek (s : State) (x : Reg) (b : Byte) (c : Nat) : (s.setV x b).peek c = s.peek c := rfl

/-! `setI` -/

@[simp] theorem State.setI_v (s : State) (a : Word) : (s.setI a).v = s.v := rfl
@[simp] theorem State.setI_i (s : State) (a : Word) : (s.setI a).i = a := rfl
@[simp] theorem State.setI_pc (s : State) (a : Word) : (s.setI a).pc = s.pc := rfl
@[simp] theorem State.setI_stack (s : State) (a : Word) : (s.setI a).stack = s.stack := rfl
@[simp] theorem State.setI_sp (s : State) (a : Word) : (s.setI a).sp = s.sp := rfl
@[simp] theorem State.setI_dt (s : State) (a : Word) : (s.setI a).dt = s.dt := rfl
@[simp] theorem State.setI_st (s : State) (a : Word) : (s.setI a).st = s.st := rfl
@[simp] theorem State.setI_fb (s : State) (a : Word) : (s.setI a).fb = s.fb := rfl
@[simp] theorem State.setI_keyBuf (s : State) (a : Word) : (s.setI a).keyBuf = s.keyBuf := rfl
@[simp] theorem State.setI_key (s : State) (a : Word) : (s.setI a).key = s.key := rfl
@[simp] theorem State.setI_mstate (s : State) (a : Word) : (s.setI a).mstate = s.mstate := rfl
@[simp] theorem State.setI_fault (s : State) (a : Word) : (s.setI a).fault = s.fault := rfl
@[simp] theorem State.setI_refresh (s : State) (a : Word) : (s.setI a).refresh = s.refresh := rfl
@[simp] theorem State.setI_mem (s : State) (a : Word) : (s.setI a).mem = s.mem := rfl
@[simp] theorem State.setI_cfg (s : State) (a : Word) : (s.setI a).cfg = s.cfg := rfl
@[simp] theorem State.setI_host (s : State) (a : Word) : (s.setI a).host = s.host := rfl
@[simp] theorem State.setI_out (s : State) (a : Word) : (s.setI a).out = s.out := rfl
@[simp] theorem State.setI_draws (s : State) (a : Word) : (s.setI a).draws = s.draws := rfl
@[simp] theorem State.setI_getV (s : State) (a : Word) (r : Reg) : (s.setI a).getV r = s.getV r := rfl
@[simp] theorem State.setI_peek (s : State) (a : Word) (c : Nat) : (s.setI a).peek c = s.peek c := rfl

/-! `setPc` -/

@[simp] theorem State.setPc_v (s : State) (a : Word) : (s.setPc a).v = s.v := rfl
@[simp] theorem State.setPc_i (s : State) (a : Word) : (s.setPc a).i = s.i := rfl
@[simp] theorem State.setPc_pc (s : State) (a : Word) : (s.setPc a).pc = a := rfl
@[simp] theorem State.setPc_stack (s : State) (a : Word) : (s.setPc a).stack = s.stack := rfl
@[simp] theorem State.setPc_sp (s : State) (a : Word) : (s.setPc a).sp = s.sp := rfl
@[simp] theorem State.setPc_dt (s : State) (a : Word) : (s.setPc a).dt = s.dt := rfl
@[simp] theorem State.setPc_st (s : State) (a : Word) : (s.setPc a).st = s.st := rfl
@[simp] theorem State.setPc_fb (s : State) (a : Word) : (s.setPc a).fb = s.fb := rfl
@[simp] theorem State.setPc_keyBuf (s : State) (a : Word) : (s.setPc a).keyBuf = s.keyBuf := rfl
@[simp] theorem State.setPc_key (s : State) (a : Word) : (s.setPc a).key = s.key := rfl
@[simp] theorem State.setPc_mstate (s : State) (a : Word) : (s.setPc a).mstate = s.mstate := rfl
@[simp] theorem State.setPc_fault (s : State) (a : Word) : (s.setPc a).fault = s.fault := rfl
@[simp] theorem State.setPc_refresh (s : State) (a : Word) : (s.setPc a).refresh = s.refresh := rfl
@[simp] theorem State.setPc_mem (s : State) (a : Word) : (s.setPc a).mem = s.mem := rfl
@[simp] theorem State.setPc_cfg (s : State) (a : Word) : (s.setPc a).cfg = s.cfg := rfl
@[simp] theorem State.setPc_host (s : State) (a : Word) : (s.setPc a).host = s.host := rfl
@[simp] theorem State.setPc_out (s : State) (a : Word) : (s.setPc a).out = s.out := rfl
@[simp] theorem State.setPc_draws (s : State) (a : Word) : (s.setPc a).draws = s.draws := rfl
@[simp] theorem State.setPc_getV (s : State) (a : Word) (r : Reg) : (s.setPc a).getV r = s.getV r := rfl
@[simp] theorem State.setPc_peek (s : State) (a : Word) (c : Nat) : (s.setPc a).peek c = s.peek c := rfl

/-! `advance` -/

@[simp] theorem State.advance_v (s : State) (n : Word) : (s.advance n).v = s.v := rfl
@[simp] theorem State.advance_i (s : State) (n : Word) : (s.advance n).i = s.i := rfl
@[simp] theorem State.advance_pc (s : State) (n : Word) : (s.advance n).pc = s.pc + n := rfl
@[simp] theorem State.advance_stack (s : State) (n : Word) : (s.advance n).stack = s.stack := rfl
@[simp] theorem State.advance_sp (s : State) (n : Word) : (s.advance n).sp = s.sp := rfl
@[simp] theorem State.advance_dt (s : State) (n : Word) : (s.advance n).dt = s.dt := rfl
@[simp] theorem State.advance_st (s : State) (n : Word) : (s.advance n).st = s.st := rfl
@[simp] theorem State.advance_fb (s : State) (n : Word) : (s.advance n).fb = s.fb := rfl
@[simp] theorem State.advance_keyBuf (s : State) (n : Word) : (s.advance n).keyBuf = s.keyBuf := rfl
@[simp] theorem State.advance_key (s : State) (n : Word) : (s.advance n).key = s.key := rfl
@[simp] theorem State.advance_mstate (s : State) (n : Word) : (s.advance n).mstate = s.mstate := rfl
@[simp] theorem State.advance_fault (s : State) (n : Word) : (s.advance n).fault = s.fault := rfl
@[simp] theorem State.advance_refresh (s : State) (n : Word) : (s.advance n).refresh = s.refresh := rfl
@[simp] theorem State.advance_mem (s : State) (n : Word) : (s.advance n).mem = s.mem := rfl
@[simp] theorem State.advance_cfg (s : State) (n : Word) : (s.advance n).cfg = s.cfg := rfl
@[simp] theorem State.advance_host (s : State) (n : Word) : (s.advance n).host = s.host := rfl
@[simp] theorem State.advance_out (s : State) (n : Word) : (s.advance n).out = s.out := rfl
@[simp] theorem State.advance_draws (s : State) (n : Word) : (s.advance n).draws = s.draws := rfl
@[simp] theorem State.advance_getV (s : State) (n : Word) (r : Reg) : (s.advance n).getV r = s.getV r := rfl
@[simp] theorem State.advance_peek (s : State) (n : Word) (c : Nat) : (s.advance n).peek c = s.peek c := rfl

/-! `setDT` -/

@[simp] theorem State.setDT_v (s : State) (b : Byte) : (s.setDT b).v = s.v := rfl
@[simp] theorem State.setDT_i (s : State) (b : Byte) : (s.setDT b).i = s.i := rfl
@[simp] theorem State.setDT_pc (s : State) (b : Byte) : (s.setDT b).pc = s.pc := rfl
@[simp] theorem State.setDT_stack (s : State) (b : Byte) : (s.setDT b).stack = s.stack := rfl
@[simp] theorem State.setDT_sp (s : State) (b : Byte) : (s.setDT b).sp = s.sp := rfl
@[simp] theorem State.setDT_dt (s : State) (b : Byte) : (s.setDT b).dt = b := rfl
@[simp] theorem State.setDT_st (s : State) (b : Byte) : (s.setDT b).st = s.st := rfl
@[simp] theorem State.setDT_fb (s : State) (b : Byte) : (s.setDT b).fb = s.fb := rfl
@[simp] theorem State.setDT_keyBuf (s : State) (b : Byte) : (s.setDT b).keyBuf = s.keyBuf := rfl
@[simp] theorem State.setDT_key (s : State) (b : Byte) : (s.setDT b).key = s.key := rfl
@[simp] theorem State.setDT_mstate (s : State) (b : Byte) : (s.setDT b).mstate = s.mstate := rfl
@[simp] theorem State.setDT_fault (s : State) (b : Byte) : (s.setDT b).fault = s.fault := rfl
@[simp] theorem State.setDT_refresh (s : State) (b : Byte) : (s.setDT b).refresh = s.refresh := rfl
@[simp] theorem State.setDT_mem (s : State) (b : Byte) : (s.setDT b).mem = s.mem := rfl
@[simp] theorem State.setDT_cfg (s : State) (b : Byte) : (s.setDT b).cfg = s.cfg := rfl
@[simp] theorem State.setDT_host (s : State) (b : Byte) : (s.setDT b).host = s.host := rfl
@[simp] theorem State.setDT_out (s : State) (b : Byte) : (s.setDT b).out = s.out := rfl
@[simp] theorem State.setDT_draws (s : State) (b : Byte) : (s.setDT b).draws = s.draws := rfl
@[simp] theorem State.setDT_getV (s : State) (b : Byte) (r : Reg) : (s.setDT b).getV r = s.getV r := rfl
@[simp] theorem State.setDT_peek (s : State) (b : Byte) (c : Nat) : (s.setDT b).peek c = s.peek c := rfl

/-! `setST` -/

@[simp] theorem State.setST_v (s : State) (b : Byte) : (s.setST b).v = s.v := rfl
@[simp] theorem State.setST_i (s : State) (b : Byte) : (s.setST b).i = s.i := rfl
@[simp] theorem State.setST_pc (s : State) (b : Byte) : (s.setST b).pc = s.pc := rfl
@[simp] theorem State.setST_stack (s : State) (b : Byte) : (s.setST b).stack = s.stack := rfl
@[simp] theorem State.setST_sp (s : State) (b : Byte) : (s.setST b).sp = s.sp := rfl
@[simp] theorem State.setST_dt (s : State) (b : Byte) : (s.setST b).dt = s.dt := rfl
@[simp] theorem State.setST_st (s : State) (b : Byte) : (s.setST b).st = b := rfl
@[simp] theorem State.setST_fb (s : State) (b : Byte) : (s.setST b).fb = s.fb := rfl
@[simp] theorem State.setST_keyBuf (s : State) (b : Byte) : (s.setST b).keyBuf = s.keyBuf := rfl
@[simp] theorem State.setST_key (s : State) (b : Byte) : (s.setST b).key = s.key := rfl
@[simp] theorem State.setST_mstate (s : State) (b : Byte) : (s.setST b).mstate = s.mstate := rfl
@[simp] theorem State.setST_fault (s : State) (b : Byte) : (s.setST b).fault = s.fault := rfl
@[simp] theorem State.setST_refresh (s : State) (b : Byte) : (s.setST b).refresh = s.refresh := rfl
@[simp] theorem State.setST_mem (s : State) (b : Byte) : (s.setST b).mem = s.mem := rfl
@[simp] theorem State.setST_cfg (s : State) (b : Byte) : (s.setST b).cfg = s.cfg := rfl
@[simp] theorem State.setST_host (s : State) (b : Byte) : (s.setST b).host = s.host := rfl
@[simp] theorem State.setST_out (s : State) (b : Byte) : (s.setST b).out = s.out := rfl
@[simp] theorem State.setST_draws (s : State) (b : Byte) : (s.setST b).draws = s.draws := rfl
@[simp] theorem State.setST_getV (s : State) (b : Byte) (r : Reg) : (s.setST b).getV r = s.getV r := rfl
@[simp] theorem State.setST_peek (s : State) (b : Byte) (c : Nat) : (s.setST b).peek c = s.peek c := rfl

/-! `setFb` -/

@[simp] theorem State.setFb_v (s : State) (fb : Framebuffer) : (s.setFb fb).v = s.v := rfl
@[simp] theorem State.setFb_i (s : State) (fb : Framebuffer) : (s.setFb fb).i = s.i := rfl
@[simp] theorem State.setFb_pc (s : State) (fb : Framebuffer) : (s.setFb fb).pc = s.pc := rfl
@[simp] theorem State.setFb_stack (s : State) (fb : Framebuffer) : (s.setFb fb).stack = s.stack := rfl
@[simp] theorem State.setFb_sp (s : State) (fb : Framebuffer) : (s.setFb fb).sp = s.sp := rfl
@[simp] theorem State.setFb_dt (s : State) (fb : Framebuffer) : (s.setFb fb).dt = s.dt := rfl
@[simp] theorem State.setFb_st (s : State) (fb : Framebuffer) : (s.setFb fb).st = s.st := rfl
@[simp] theorem State.setFb_fb (s : State) (fb : Framebuffer) : (s.setFb fb).fb = fb := rfl
@[simp] theorem State.setFb_keyBuf (s : State) (fb : Framebuffer) : (s.setFb fb).keyBuf = s.keyBuf := rfl
@[simp] theorem State.setFb_key (s : State) (fb : Framebuffer) : (s.setFb fb).key = s.key := rfl
@[simp] theorem State.setFb_mstate (s : State) (fb : Framebuffer) : (s.setFb fb).mstate = s.mstate := rfl
@[simp] theorem State.setFb_fault (s : State) (fb : Framebuffer) : (s.setFb fb).fault = s.fault := rfl
@[simp] theorem State.setFb_refresh (s : State) (fb : Framebuffer) : (s.setFb fb).refresh = s.refresh := rfl
@[simp] theorem State.setFb_mem (s : State) (fb : Framebuffer) : (s.setFb fb).mem = s.mem := rfl
@[simp] theorem State.setFb_cfg (s : State) (fb : Framebuffer) : (s.setFb fb).cfg = s.cfg := rfl
@[simp] theorem State.setFb_host (s : State) (fb : Framebuffer) : (s.setFb fb).host = s.host := rfl
@[simp] theorem State.setFb_out (s : State) (fb : Framebuffer) : (s.setFb fb).out = s.out := rfl
@[simp] theorem State.setFb_draws (s : State) (fb : Framebuffer) : (s.setFb fb).draws = s.draws := rfl
@[simp] theorem State.setFb_getV (s : State) (fb : Framebuffer) (r : Reg) : (s.setFb fb).getV r = s.getV r := rfl
@[simp] theorem State.setFb_peek (s : State) (fb : Framebuffer) (c : Nat) : (s.setFb fb).peek c = s.peek c := rfl

/-! `requestRefresh` -/

@[simp] theorem State.requestRefresh_v (s : State) : (s.requestRefresh).v = s.v := rfl
@[simp] theorem State.requestRefresh_i (s : State) : (s.requestRefresh).i = s.i := rfl
@[simp] theorem State.requestRefresh_pc (s : State) : (s.requestRefresh).pc = s.pc := rfl
@[simp] theorem State.requestRefresh_stack (s : State) : (s.requestRefresh).stack = s.stack := rfl
@[simp] theorem State.requestRefresh_sp (s : State) : (s.requestRefresh).sp = s.sp := rfl
@[simp] theorem State.requestRefresh_dt (s : State) : (s.requestRefresh).dt = s.dt := rfl
@[simp] theorem State.requestRefresh_st (s : State) : (s.requestRefresh).st = s.st := rfl
@[simp] theorem State.requestRefresh_fb (s : State) : (s.requestRefresh).fb = s.fb := rfl
@[simp] theorem State.requestRefresh_keyBuf (s : State) : (s.requestRefresh).keyBuf = s.keyBuf := rfl
@[simp] theorem State.requestRefresh_key (s : State) : (s.requestRefresh).key = s.key := rfl
@[simp] theorem State.requestRefresh_mstate (s : State) : (s.requestRefresh).mstate = s.mstate := rfl
@[simp] theorem State.requestRefresh_fault (s : State) : (s.requestRefresh).fault = s.fault := rfl
@[simp] theorem State.requestRefresh_refresh (s : State) : (s.requestRefresh).refresh = true := rfl
@[simp] theorem State.requestRefresh_mem (s : State) : (s.requestRefresh).mem = s.mem := rfl
@[simp] theorem State.requestRefresh_cfg (s : State) : (s.requestRefresh).cfg = s.cfg := rfl
@[simp] theorem State.requestRefresh_host (s : State) : (s.requestRefresh).host = s.host := rfl
@[simp] theorem State.requestRefresh_out (s : State) : (s.requestRefresh).out = s.out := rfl
@[simp] theorem State.requestRefresh_draws (s : State) : (s.requestRefresh).draws = s.draws := rfl
@[simp] theorem State.requestRefresh_getV (s : State) (r : Reg) : (s.requestRefresh).getV r = s.getV r := rfl
@[simp] theorem State.requestRefresh_peek (s : State) (c : Nat) : (s.requestRefresh).peek c = s.peek c := rfl

/-! `emit` -/

@[simp] theorem State.emit_v (s : State) (o : Output) : (s.emit o).v = s.v := rfl
@[simp] theorem State.emit_i (s : State) (o : Output) : (s.emit o).i = s.i := rfl
@[simp] theorem State.emit_pc (s : State) (o : Output) : (s.emit o).pc = s.pc := rfl
@[simp] theorem State.emit_stack (s : State) (o : Output) : (s.emit o).stack = s.stack := rfl
@[simp] theorem State.emit_sp (s : State) (o : Output) : (s.emit o).sp = s.sp := rfl
@[simp] theorem State.emit_dt (s : State) (o : Output) : (s.emit o).dt = s.dt := rfl
@[simp] theorem State.emit_st (s : State) (o : Output) : (s.emit o).st = s.st := rfl
@[simp] theorem State.emit_fb (s : State) (o : Output) : (s.emit o).fb = s.fb := rfl
@[simp] theorem State.emit_keyBuf (s : State) (o : Output) : (s.emit o).keyBuf = s.keyBuf := rfl
@[simp] theorem State.emit_key (s : State) (o : Output) : (s.emit o).key = s.key := rfl
@[simp] theorem State.emit_mstate (s : State) (o : Output) : (s.emit o).mstate = s.mstate := rfl
@[simp] theorem State.emit_fault (s : State) (o : Output) : (s.emit o).fault = s.fault := rfl
@[simp] theorem State.emit_refresh (s : State) (o : Output) : (s.emit o).refresh = s.refresh := rfl
@[simp] theorem State.emit_mem (s : State) (o : Output) : (s.emit o).mem = s.mem := rfl
@[simp] theorem State.emit_cfg (s : State) (o : Output) : (s.emit o).cfg = s.cfg := rfl
@[simp] theorem State.emit_host (s : State) (o : Output) : (s.emit o).host = s.host := rfl
@[simp] theorem State.emit_out (s : State) (o : Output) : (s.emit o).out = s.out ++ [o] := rfl
@[simp] theorem State.emit_draws (s : State) (o : Output) : (s.emit o).draws = s.draws := rfl
@[simp] theorem State.emit_getV (s : State) (o : Output) (r : Reg) : (s.emit o).getV r = s.getV r := rfl
@[simp] theorem State.emit_peek (s : State) (o : Output) (c : Nat) : (s.emit o).peek c = s.peek c := rfl

/-! `raise` -/

@[simp] theorem State.raise_v (s : State) (k : FaultKind) (w : Option Word) (a : Option Nat) : (s.raise k w a).v = s.v := rfl
@[simp] theorem State.raise_i (s : State) (k : FaultKind) (w : Option Word) (a : Option Nat) : (s.raise k w a).i = s.i := rfl
@[simp] theorem State.raise_pc (s : State) (k : FaultKind) (w : Option Word) (a : Option Nat) : (s.raise k w a).pc = s.pc := rfl
@[simp] theorem State.raise_stack (s : State) (k : FaultKind) (w : Option Word) (a : Option Nat) : (s.raise k w a).stack = s.stack := rfl
@[simp] theorem State.raise_sp (s : State) (k : FaultKind) (w : Option Word) (a : Option Nat) : (s.raise k w a).sp = s.sp := rfl
@[simp] theorem State.raise_dt (s : State) (k : FaultKind) (w : Option Word) (a : Option Nat) : (s.raise k w a).dt = s.dt := rfl
@[simp] theorem State.raise_st (s : State) (k : FaultKind) (w : Option Word) (a : Option Nat) : (s.raise k w a).st = s.st := rfl
@[simp] theorem State.raise_fb (s : State) (k : FaultKind) (w : Option Word) (a : Option Nat) : (s.raise k w a).fb = s.fb := rfl
@[simp] theorem State.raise_keyBuf (s : State) (k : FaultKind) (w : Option Word) (a : Option Nat) : (s.raise k w a).keyBuf = s.keyBuf := rfl
@[simp] theorem State.raise_key (s : State) (k : FaultKind) (w : Option Word) (a : Option Nat) : (s.raise k w a).key = s.key := rfl
@[simp] theorem State.raise_mstate (s : State) (k : FaultKind) (w : Option Word) (a : Option Nat) : (s.raise k w a).mstate = .stopped := rfl
@[simp] theorem State.raise_fault (s : State) (k : FaultKind) (w : Option Word) (a : Option Nat) : (s.raise k w a).fault = some ⟨k, s.pc, w, a⟩ := rfl
@[simp] theorem State.raise_refresh (s : State) (k : FaultKind) (w : Option Word) (a : Option Nat) : (s.raise k w a).refresh = s.refresh := rfl
@[simp] theorem State.raise_mem (s : State) (k : FaultKind) (w : Option Word) (a : Option Nat) : (s.raise k w a).mem = s.mem := rfl
@[simp] theorem State.raise_cfg (s : State) (k : FaultKind) (w : Option Word) (a : Option Nat) : (s.raise k w a).cfg = s.cfg := rfl
@[simp] theorem State.raise_host (s : State) (k : FaultKind) (w : Option Word) (a : Option Nat) : (s.raise k w a).host = s.host := rfl
@[simp] theorem State.raise_out (s : State) (k : FaultKind) (w : Option Word) (a : Option Nat) : (s.raise k w a).out = s.out ++ [.faultReport ⟨k, s.pc, w, a⟩] := rfl
@[simp] theorem State.raise_draws (s : State) (k : FaultKind) (w : Option Word) (a : Option Nat) : (s.raise k w a).draws = s.draws := rfl
@[simp] theorem State.raise_getV (s : State) (k : FaultKind) (w : Option Word) (a : Option Nat) (r : Reg) : (s.raise k w a).getV r = s.getV r := rfl
@[simp] theorem State.raise_peek (s : State) (k : FaultKind) (w : Option Word) (a : Option Nat) (c : Nat) : (s.raise k w a).peek c = s.peek c := rfl

/-! `pokeBytes` -/

@[simp] theorem State.pokeBytes_v (s : State) (a : Nat) (bs : List Byte) : (s.pokeBytes a bs).v = s.v := rfl
@[simp] theorem State.pokeBytes_i (s : State) (a : Nat) (bs : List Byte) : (s.pokeBytes a bs).i = s.i := rfl
@[simp] theorem State.pokeBytes_pc (s : State) (a : Nat) (bs : List Byte) : (s.pokeBytes a bs).pc = s.pc := rfl
@[simp] theorem State.pokeBytes_stack (s : State) (a : Nat) (bs : List Byte) : (s.pokeBytes a bs).stack = s.stack := rfl
@[simp] theorem State.pokeBytes_sp (s : State) (a : Nat) (bs : List Byte) : (s.pokeBytes a bs).sp = s.sp := rfl
@[simp] theorem State.pokeBytes_dt (s : State) (a : Nat) (bs : List Byte) : (s.pokeBytes a bs).dt = s.dt := rfl
@[simp] theorem State.pokeBytes_st (s : State) (a : Nat) (bs : List Byte) : (s.pokeBytes a bs).st = s.st := rfl
@[simp] theorem State.pokeBytes_fb (s : State) (a : Nat) (bs : List Byte) : (s.pokeBytes a bs).fb = s.fb := rfl
@[simp] theorem State.pokeBytes_keyBuf (s : State) (a : Nat) (bs : List Byte) : (s.pokeBytes a bs).keyBuf = s.keyBuf := rfl
@[simp] theorem State.pokeBytes_key (s : State) (a : Nat) (bs : List Byte) : (s.pokeBytes a bs).key = s.key := rfl
@[simp] theorem State.pokeBytes_mstate (s : State) (a : Nat) (bs : List Byte) : (s.pokeBytes a bs).mstate = s.mstate := rfl
@[simp] theorem State.pokeBytes_fault (s : State) (a : Nat) (bs : List Byte) : (s.pokeBytes a bs).fault = s.fault := rfl
@[simp] theorem State.pokeBytes_refresh (s : State) (a : Nat) (bs : List Byte) : (s.pokeBytes a bs).refresh = s.refresh := rfl
@[simp] theorem State.pokeBytes_mem (s : State) (a : Nat) (bs : List Byte) : (s.pokeBytes a bs).mem = memWriteBytes s.cfg.font s.mem a bs := rfl
@[simp] theorem State.pokeBytes_cfg (s : State) (a : Nat) (bs : List Byte) : (s.pokeBytes a bs).cfg = s.cfg := rfl
@[simp] theorem State.pokeBytes_host (s : State) (a : Nat) (bs : List Byte) : (s.pokeBytes a bs).host = s.host := rfl
@[simp] theorem State.pokeBytes_out (s : State) (a : Nat) (bs : List Byte) : (s.pokeBytes a bs).out = s.out := rfl
@[simp] theorem State.pokeBytes_draws (s : State) (a : Nat) (bs : List Byte) : (s.pokeBytes a bs).draws = s.draws := rfl
@[simp] theorem State.pokeBytes_getV (s : State) (a : Nat) (bs : List Byte) (r : Reg) : (s.pokeBytes a bs).getV r = s.getV r := rfl

/-! `decay` -/

@[simp] theorem State.decay_v (s : State) : (s.decay).v = s.v := rfl
@[simp] theorem State.decay_i (s : State) : (s.decay).i = s.i := rfl
@[simp] theorem State.decay_pc (s : State) : (s.decay).pc = s.pc := rfl
@[simp] theorem State.decay_stack (s : State) : (s.decay).stack = s.stack := rfl
@[simp] theorem State.decay_sp (s : State) : (s.decay).sp = s.sp := rfl
@[simp] theorem State.decay_dt (s : State) : (s.decay).dt = decayTimer s.dt := rfl
@[simp] theorem State.decay_st (s : State) : (s.decay).st = decayTimer s.st := rfl
@[simp] theorem State.decay_fb (s : State) : (s.decay).fb = s.fb := rfl
@[simp] theorem State.decay_keyBuf (s : State) : (s.decay).keyBuf = s.keyBuf := rfl
@[simp] theorem State.decay_key (s : State) : (s.decay).key = s.key := rfl
@[simp] theorem State.decay_mstate (s : State) : (s.decay).mstate = s.mstate := rfl
@[simp] theorem State.decay_fault (s : State) : (s.decay).fault = s.fault := rfl
@[simp] theorem State.decay_refresh (s : State) : (s.decay).refresh = s.refresh := rfl
@[simp] theorem State.decay_mem (s : State) : (s.decay).mem = s.mem := rfl
@[simp] theorem State.decay_cfg (s : State) : (s.decay).cfg = s.cfg := rfl
@[simp] theorem State.decay_host (s : State) : (s.decay).host = s.host := rfl
@[simp] theorem State.decay_out (s : State) : (s.decay).out = s.out := rfl
@[simp] theorem State.decay_draws (s : State) : (s.decay).draws = s.draws := rfl
@[simp] theorem State.decay_getV (s : State) (r : Reg) : (s.decay).getV r = s.getV r := rfl
@[simp] theorem State.decay_peek (s : State) (c : Nat) : (s.decay).peek c = s.peek c := rfl

/-! `setHost` -/

@[simp] theorem State.setHost_v (s : State) (turns : List Turn) : (s.setHost turns).v = s.v := rfl
@[simp] theorem State.setHost_i (s : State) (turns : List Turn) : (s.setHost turns).i = s.i := rfl
@[simp] theorem State.setHost_pc (s : State) (turns : List Turn) : (s.setHost turns).pc = s.pc := rfl
@[simp] theorem State.setHost_stack (s : State) (turns : List Turn) : (s.setHost turns).stack = s.stack := rfl
@[simp] theorem State.setHost_sp (s : State) (turns : List Turn) : (s.setHost turns).sp = s.sp := rfl
@[simp] theorem State.setHost_dt (s : State) (turns : List Turn) : (s.setHost turns).dt = s.dt := rfl
@[simp] theorem State.setHost_st (s : State) (turns : List Turn) : (s.setHost turns).st = s.st := rfl
@[simp] theorem State.setHost_fb (s : State) (turns : List Turn) : (s.setHost turns).fb = s.fb := rfl
@[simp] theorem State.setHost_keyBuf (s : State) (turns : List Turn) : (s.setHost turns).keyBuf = s.keyBuf := rfl
@[simp] theorem State.setHost_key (s : State) (turns : List Turn) : (s.setHost turns).key = s.key := rfl
@[simp] theorem State.setHost_mstate (s : State) (turns : List Turn) : (s.setHost turns).mstate = s.mstate := rfl
@[simp] theorem State.setHost_fault (s : State) (turns : List Turn) : (s.setHost turns).fault = s.fault := rfl
@[simp] theorem State.setHost_refresh (s : State) (turns : List Turn) : (s.setHost turns).refresh = s.refresh := rfl
@[simp] theorem State.setHost_mem (s : State) (turns : List Turn) : (s.setHost turns).mem = s.mem := rfl
@[simp] theorem State.setHost_cfg (s : State) (turns : List Turn) : (s.setHost turns).cfg = s.cfg := rfl
@[simp] theorem State.setHost_host (s : State) (turns : List Turn) : (s.setHost turns).host = turns := rfl
@[simp] theorem State.setHost_out (s : State) (turns : List Turn) : (s.setHost turns).out = s.out := rfl
@[simp] theorem State.setHost_draws (s : State) (turns : List Turn) : (s.setHost turns).draws = s.draws := rfl
@[simp] theorem State.setHost_getV (s : State) (turns : List Turn) (r : Reg) : (s.setHost turns).getV r = s.getV r := rfl
@[simp] theorem State.setHost_peek (s : State) (turns : List Turn) (c : Nat) : (s.setHost turns).peek c = s.peek c := rfl

/-! `beginCycle` -/

@[simp] theorem State.beginCycle_v (s : State) : (s.beginCycle).v = s.v := rfl
@[simp] theorem State.beginCycle_i (s : State) : (s.beginCycle).i = s.i := rfl
@[simp] theorem State.beginCycle_pc (s : State) : (s.beginCycle).pc = s.pc := rfl
@[simp] theorem State.beginCycle_stack (s : State) : (s.beginCycle).stack = s.stack := rfl
@[simp] theorem State.beginCycle_sp (s : State) : (s.beginCycle).sp = s.sp := rfl
@[simp] theorem State.beginCycle_dt (s : State) : (s.beginCycle).dt = s.dt := rfl
@[simp] theorem State.beginCycle_st (s : State) : (s.beginCycle).st = s.st := rfl
@[simp] theorem State.beginCycle_fb (s : State) : (s.beginCycle).fb = s.fb := rfl
@[simp] theorem State.beginCycle_keyBuf (s : State) : (s.beginCycle).keyBuf = s.keyBuf := rfl
@[simp] theorem State.beginCycle_key (s : State) : (s.beginCycle).key = s.keyBuf := rfl
@[simp] theorem State.beginCycle_mstate (s : State) : (s.beginCycle).mstate = s.mstate := rfl
@[simp] theorem State.beginCycle_fault (s : State) : (s.beginCycle).fault = s.fault := rfl
@[simp] theorem State.beginCycle_refresh (s : State) : (s.beginCycle).refresh = false := rfl
@[simp] theorem State.beginCycle_mem (s : State) : (s.beginCycle).mem = s.mem := rfl
@[simp] theorem State.beginCycle_cfg (s : State) : (s.beginCycle).cfg = s.cfg := rfl
@[simp] theorem State.beginCycle_host (s : State) : (s.beginCycle).host = s.host := rfl
@[simp] theorem State.beginCycle_out (s : State) : (s.beginCycle).out = s.out := rfl
@[simp] theorem State.beginCycle_draws (s : State) : (s.beginCycle).draws = s.draws := rfl
@[simp] theorem State.beginCycle_getV (s : State) (r : Reg) : (s.beginCycle).getV r = s.getV r := rfl
@[simp] theorem State.beginCycle_peek (s : State) (c : Nat) : (s.beginCycle).peek c = s.peek c := rfl

end Sys2Proof.Machine
end

