-- ==== Sys2Proof/Laws/Ops.lean ====
section
/-! SUPPORT. What each shared operation of the machine can do, said once, for proofs to cite. -/

namespace Sys2Proof.Machine

/-! ### Registers -/

theorem State.setV_getV (s : State) (x r : Reg) (b : Byte) :
    (s.setV x b).getV r = if r = x then b else s.getV r := by
  have hx : x.val = r.val ↔ r = x := ⟨fun h => (Fin.ext h).symm, fun h => h ▸ rfl⟩
  simp [State.getV, State.setV, Vector.getElem_set, hx]

@[simp] theorem State.setV_getV_self (s : State) (x : Reg) (b : Byte) : (s.setV x b).getV x = b := by
  simp [State.setV_getV]

theorem State.setV_getV_ne (s : State) {x r : Reg} (b : Byte) (h : r ≠ x) :
    (s.setV x b).getV r = s.getV r := by
  simp [State.setV_getV, h]

/-- A skip writes `pc` and nothing else. -/
theorem State.skipIf_eq (s : State) (c : Bool) :
    s.skipIf c = s.setPc (if c then s.pc + 4 else s.pc + 2) := by
  cases c <;> rfl

theorem vLoad_getElem {v : Vector Byte 16} {bs : List Byte} {k r : Nat} (hr : r < 16) :
    (vLoad v k bs)[r] = if h : k ≤ r ∧ r < k + bs.length then bs[r - k]'(by omega) else v[r] := by
  induction bs generalizing v k with
  | nil => simp [vLoad]
  | cons b bs ih =>
    rw [vLoad, ih]
    by_cases h0 : r = k
    · subst h0
      simp [show ¬ (r + 1 ≤ r) by omega]
    · have hne : k ≠ r := fun h => h0 h.symm
      by_cases hin : k + 1 ≤ r ∧ r < k + 1 + bs.length
      · have hin' : k ≤ r ∧ r < k + (b :: bs).length := by simp only [List.length_cons]; omega
        rw [dif_pos hin, dif_pos hin']
        have hsub : r - k = (r - (k + 1)) + 1 := by omega
        simp [hsub]
      · have hin' : ¬ (k ≤ r ∧ r < k + (b :: bs).length) := by simp only [List.length_cons]; omega
        rw [dif_neg hin, dif_neg hin']
        simp [hne]

/-! ### Flags -/

/-- The two writes of R182 as one value per register. -/
theorem State.writeFlagged_getV (s : State) (x : Reg) (res : Byte) (flag : Bool) (r : Reg) :
    (s.writeFlagged x res flag).getV r =
      if r = x ∧ (x ≠ regF ∨ s.cfg.vfOrder = .flagThenResult) then res
      else if r = regF then flagByte flag else s.getV r := by
  unfold State.writeFlagged
  cases ho : s.cfg.vfOrder <;> simp only [State.setV_getV] <;> by_cases hr : r = x <;>
    by_cases hf : r = regF <;> simp_all

/-- The two writes of R182 change `v` alone. -/
theorem State.writeFlagged_eq (s : State) (x : Reg) (res : Byte) (flag : Bool) :
    s.writeFlagged x res flag = { s with v := (s.writeFlagged x res flag).v } := by
  unfold State.writeFlagged
  cases s.cfg.vfOrder <;> rfl

/-! ### Checks and faults -/

theorem checkRead_eq_none {a : Nat} : checkRead a = none ↔ a ≤ 0xFFF := by
  simp [checkRead]

theorem checkWrite_eq_none {cfg : Config} {a : Nat} :
    checkWrite cfg a = none ↔ a ≤ 0xFFF ∧ (0x04F < a ∨ cfg.fontWrite = .write) := by
  unfold checkWrite
  by_cases h : a > 0xFFF
  · simp [h]
  · cases hp : cfg.fontWrite <;> simp [h] <;> omega

theorem firstFailure_eq_none {check : Nat → Option FaultKind} {a n : Nat} :
    firstFailure check a n = none ↔ ∀ k, k < n → check (a + k) = none := by
  induction n generalizing a with
  | zero => simp [firstFailure]
  | succ n ih =>
    cases hc : check a with
    | some kind =>
      simp only [firstFailure, hc, reduceCtorEq, false_iff]
      intro h
      simpa [hc] using h 0 (by omega)
    | none =>
      simp only [firstFailure, hc, ih]
      constructor
      · intro h k hk
        cases k with
        | zero => exact hc
        | succ k => simpa [Nat.add_assoc, Nat.add_comm 1 k] using h k (by omega)
      · intro h k hk
        simpa [Nat.add_assoc, Nat.add_comm 1 k] using h (k + 1) (by omega)

/-- A failure names the first address that fails its check, and how. -/
theorem firstFailure_eq_some {check : Nat → Option FaultKind} {a n b : Nat} {kind : FaultKind}
    (h : firstFailure check a n = some (kind, b)) :
    check b = some kind ∧ a ≤ b ∧ b < a + n ∧ ∀ c, a ≤ c → c < b → check c = none := by
  induction n generalizing a with
  | zero => simp [firstFailure] at h
  | succ n ih =>
    cases hc : check a with
    | some k =>
      simp only [firstFailure, hc, Option.some.injEq, Prod.mk.injEq] at h
      obtain ⟨rfl, rfl⟩ := h
      exact ⟨hc, le_refl _, by omega, fun c h1 h2 => by omega⟩
    | none =>
      simp only [firstFailure, hc] at h
      obtain ⟨h1, h2, h3, h4⟩ := ih h
      refine ⟨h1, by omega, by omega, fun c hc1 hc2 => ?_⟩
      by_cases he : c = a
      · exact he ▸ hc
      · exact h4 c (by omega) hc2

/-- A checked instruction either takes the fault of a failing address or has its effect. -/
theorem State.ifChecked_cases {s t effect : State} {w : Word} {failure : Option (FaultKind × Nat)}
    (h : s.ifChecked w failure effect = .next t) :
    (∃ kind a, failure = some (kind, a) ∧ t = s.raise kind (some w) (some a)) ∨
    (failure = none ∧ t = effect) := by
  cases failure with
  | none => exact .inr ⟨rfl, by simpa [State.ifChecked] using h.symm⟩
  | some p => exact .inl ⟨p.1, p.2, rfl, by simpa [State.ifChecked] using h.symm⟩

/-- An UNKNOWN word is skipped with a diagnostic or takes its fault. -/
theorem unknownWord_cases {w : Word} {s t : State} (h : unknownWord w s = .next t) :
    (s.cfg.unknownOpcode = .skip ∧ t = (s.emit (.unknownOpcode s.pc w)).advance 2) ∨
    (s.cfg.unknownOpcode = .halt ∧ t = s.raise .unknownOpcode (some w) none) := by
  unfold unknownWord at h
  cases hp : s.cfg.unknownOpcode <;> simp only [hp] at h <;> cases h
  · exact .inl ⟨rfl, rfl⟩
  · exact .inr ⟨rfl, rfl⟩

/-- The fetch answers the big-endian word, or the address R64 checks. -/
theorem State.fetch_cases (s : State) :
    (s.pc.toNat + 1 ≤ 0xFFF ∧
      s.fetch = .ok (joinBytes (s.peek s.pc.toNat) (s.peek (s.pc.toNat + 1)))) ∨
    (0xFFF < s.pc.toNat + 1 ∧ s.fetch = .error (s.pc.toNat + 1)) := by
  unfold State.fetch
  split
  · exact .inr ⟨by omega, rfl⟩
  · exact .inl ⟨by omega, rfl⟩

/-! ### The stack -/

theorem State.push_eq_none {s : State} {a : Word} : s.push a = none ↔ s.sp = 16 := by
  unfold State.push
  split
  · next hs =>
    simp only [reduceCtorEq, false_iff]
    intro h
    rw [h] at hs
    exact absurd hs (by decide)
  · simp only [true_iff]
    ext
    have := s.sp.isLt
    simp
    omega

theorem State.push_eq_some {s t : State} {a : Word} (h : s.push a = some t) :
    ∃ hs : s.sp.val < 16,
      t = { s with stack := s.stack.set s.sp.val a, sp := ⟨s.sp.val + 1, by omega⟩ } := by
  unfold State.push at h
  split at h
  · next hs => exact ⟨hs, by simpa using h.symm⟩
  · simp at h

theorem State.pop_eq_none {s : State} : s.pop = none ↔ s.sp = 0 := by
  unfold State.pop
  split
  · simp only [reduceCtorEq, false_iff]
    intro h
    simp_all
  · simp only [true_iff]
    ext
    simp
    omega

theorem State.pop_eq_some {s t : State} {a : Word} (h : s.pop = some (a, t)) :
    ∃ hs : 0 < s.sp.val, a = s.stack[s.sp.val - 1] ∧ t = { s with sp := ⟨s.sp.val - 1, by omega⟩ } := by
  unfold State.pop at h
  split at h
  · next hs => exact ⟨hs, by simp_all⟩
  · simp at h

/-! ### The framebuffer -/

/-- Flipping a cell flips that cell and no other. -/
theorem pixelAt_flipAt (fb : Framebuffer) (k j : FbCell) :
    pixelAt (flipAt fb k) j = (pixelAt fb j != decide (j = k)) := by
  have hmod : j.val % 64 < 64 := Nat.mod_lt _ (by decide)
  by_cases hrow : k.val / 64 = j.val / 64
  · by_cases hcol : k.val % 64 = j.val % 64
    · have hjk : j = k := Fin.ext (by omega)
      subst hjk
      simp [pixelAt, flipAt, hmod]
    · have hjk : j ≠ k := fun h => hcol (h ▸ rfl)
      simp [pixelAt, flipAt, BitVec.getLsbD_twoPow, hrow, hcol, hjk]
  · have hjk : j ≠ k := fun h => hrow (h ▸ rfl)
    simp [pixelAt, flipAt, hrow, hjk]

@[simp] theorem pixelAt_clearFb (k : FbCell) : pixelAt clearFb k = false := by
  simp [pixelAt, clearFb]

/-! ### Keys -/

theorem leastKeyDown_eq_none {key : Vector Bool 16} :
    leastKeyDown key = none ↔ ∀ k : Key, key[k] = false := by
  simp [leastKeyDown]

theorem leastKeyDown_eq_some {key : Vector Bool 16} {k : Key} :
    leastKeyDown key = some k ↔ key[k] = true ∧ ∀ j : Key, j < k → key[j] = false := by
  unfold leastKeyDown
  rw [List.find?_eq_some_iff_getElem]
  constructor
  · rintro ⟨hk, i, hi, rfl, hlt⟩
    refine ⟨hk, fun j hj => ?_⟩
    have := hlt j.val (by simpa [Fin.lt_def] using hj)
    simpa using this
  · rintro ⟨hk, hlt⟩
    refine ⟨hk, k.val, by simp, by simp, fun j hj => ?_⟩
    simpa using hlt ⟨j, by omega⟩ hj

end Sys2Proof.Machine
end

