-- ==== Sys2Proof/Laws/Operands.lean ====
section
/-! SUPPORT. What the address checks answer for a whole range, and what the operand forms compute. -/

namespace Sys2Proof.Machine

/-! ### The checks of R69 over a range -/

theorem firstFailure_checkRead_none {a n : Nat} (h : n = 0 ∨ a + n ≤ 0x1000) :
    firstFailure checkRead a n = none := by
  rw [firstFailure_eq_none]
  intro k hk
  rw [checkRead_eq_none]
  omega

theorem firstFailure_checkRead_some {a n : Nat} (hn : n ≠ 0) (h : 0x1000 < a + n) :
    firstFailure checkRead a n = some (.addressOutOfRange, max a 0x1000) := by
  cases hf : firstFailure checkRead a n with
  | none =>
    have hlast := firstFailure_eq_none.1 hf (n - 1) (by omega)
    rw [checkRead_eq_none] at hlast
    omega
  | some p =>
    obtain ⟨hfail, hle, hlt, hbefore⟩ := firstFailure_eq_some (kind := p.1) (b := p.2) hf
    have hb : p.2 > 0xFFF := by
      by_contra hc
      rw [checkRead_eq_none.2 (by omega)] at hfail
      cases hfail
    have hkind : p.1 = .addressOutOfRange := by simpa [checkRead, hb] using hfail.symm
    have hfirst : p.2 = max a 0x1000 := by
      by_cases ha : p.2 = a
      · omega
      · have := hbefore (p.2 - 1) (by omega) (by omega)
        rw [checkRead_eq_none] at this
        omega
    rw [← hkind, ← hfirst]

theorem firstFailure_checkWrite_none {cfg : Config} {a n : Nat} (h : a + n ≤ 0x1000)
    (hfont : 0x04F < a ∨ cfg.fontWrite = .write) : firstFailure (checkWrite cfg) a n = none := by
  rw [firstFailure_eq_none]
  intro k hk
  rw [checkWrite_eq_none]
  exact ⟨by omega, hfont.imp (by omega) id⟩

theorem firstFailure_checkWrite_top {cfg : Config} {a n : Nat} (hn : n ≠ 0) (hsmall : n ≤ 16)
    (h : 0x1000 < a + n) :
    firstFailure (checkWrite cfg) a n = some (.addressOutOfRange, max a 0x1000) := by
  cases hf : firstFailure (checkWrite cfg) a n with
  | none =>
    have hlast := firstFailure_eq_none.1 hf (n - 1) (by omega)
    rw [checkWrite_eq_none] at hlast
    omega
  | some p =>
    obtain ⟨hfail, hle, hlt, hbefore⟩ := firstFailure_eq_some (kind := p.1) (b := p.2) hf
    have hb : p.2 > 0xFFF := by
      by_contra hc
      rw [checkWrite_eq_none.2 ⟨by omega, by omega⟩] at hfail
      cases hfail
    have hkind : p.1 = .addressOutOfRange := by simpa [checkWrite, hb] using hfail.symm
    have hfirst : p.2 = max a 0x1000 := by
      by_cases ha : p.2 = a
      · omega
      · have := hbefore (p.2 - 1) (by omega) (by omega)
        rw [checkWrite_eq_none] at this
        omega
    rw [← hkind, ← hfirst]

theorem firstFailure_checkWrite_font {cfg : Config} {a n : Nat} (hn : n ≠ 0) (h : a ≤ 0x04F)
    (hfont : cfg.fontWrite = .fault) :
    firstFailure (checkWrite cfg) a n = some (.fontRegionWrite, a) := by
  obtain ⟨m, rfl⟩ := Nat.exists_eq_succ_of_ne_zero hn
  have hc : checkWrite cfg a = some .fontRegionWrite := by
    have hin : ¬ a > 0xFFF := by omega
    simp [checkWrite, hin, h, hfont]
  simp [firstFailure, hc]

/-! ### Targets, indices and lists of bytes -/

@[simp] theorem zextAddr_toNat (nnn : Addr) : (zextAddr nnn).toNat = nnn.toNat := by
  have := nnn.isLt
  simp [zextAddr]
  omega

theorem offsetTarget_toNat (nnn : Addr) (v0 : Byte) : (offsetTarget nnn v0).toNat = nnn.toNat + v0.toNat := by
  have := nnn.isLt
  have := v0.isLt
  simp [offsetTarget, zextAddr]
  omega

/-- A value below 16 names itself under either policy, and any value names its low nibble under that policy. -/
theorem nibbleIndex_eq_some {policy : IndexPolicy} {b : Byte} {d : Fin 16} (hd : d.val = b.toNat % 16)
    (h : b.toNat ≤ 15 ∨ policy = .lowNibble) : nibbleIndex policy b = some d := by
  unfold nibbleIndex
  split
  · congr 1
    exact Fin.ext (by simp; omega)
  · rcases h with h | h
    · omega
    · simp only [h]
      congr 1
      exact Fin.ext (by simp; omega)

theorem nibbleIndex_eq_none {b : Byte} (h : 15 < b.toNat) : nibbleIndex .fault b = none := by
  simp [nibbleIndex]
  omega

@[simp] theorem bcdDigits_length (b : Byte) : (bcdDigits b).length = 3 := rfl

@[simp] theorem State.firstRegs_length (s : State) (x : Reg) : (s.firstRegs x).length = x.val + 1 := by
  simp [State.firstRegs]

theorem State.firstRegs_getElem (s : State) (x r : Reg) (h : r ≤ x) :
    (s.firstRegs x)[r.val]'(by
      have hv : r.val ≤ x.val := h
      rw [State.firstRegs_length]
      omega) = s.getV r := by
  simp [State.firstRegs, State.getV]

/-- Loading registers from memory: V0..Vx from the bytes, the others as they were. -/
theorem vLoad_peekBytes (s : State) (x r : Reg) :
    (vLoad s.v 0 (s.peekBytes s.i.toNat (x.val + 1)))[r] =
      if r ≤ x then s.peek (s.i.toNat + r.val) else s.getV r := by
  show (vLoad s.v 0 (s.peekBytes s.i.toNat (x.val + 1)))[r.val] = _
  have hlen : (s.peekBytes s.i.toNat (x.val + 1)).length = x.val + 1 := memReadBytes_length
  by_cases h : r ≤ x
  · have hv : r.val ≤ x.val := h
    rw [vLoad_getElem, if_pos h, dif_pos (by omega)]
    exact memReadBytes_getElem (by omega)
  · have hv : ¬ r.val ≤ x.val := h
    rw [vLoad_getElem, if_neg h, dif_neg (by omega)]
    rfl

end Sys2Proof.Machine
end

