-- ==== Sys2Proof/Laws/Display.lean ====
section
/-! SUPPORT. Drawing a sprite is plotting a list of cells, one for each set pixel. -/

namespace Sys2Proof.Machine

/-- Plots cells in order. -/
def plotAll (p : Framebuffer × Bool) (ks : List FbCell) : Framebuffer × Bool := ks.foldl plot p

/-- Plotting distinct cells flips each of them and no other. -/
theorem pixelAt_plotAll {ks : List FbCell} (hn : ks.Nodup) (p : Framebuffer × Bool) (j : FbCell) :
    pixelAt (plotAll p ks).1 j = (pixelAt p.1 j != decide (j ∈ ks)) := by
  induction ks generalizing p with
  | nil => simp [plotAll]
  | cons k ks ih =>
    rw [List.nodup_cons] at hn
    rw [show plotAll p (k :: ks) = plotAll (plot p k) ks from rfl, ih hn.2]
    simp only [plot, pixelAt_flipAt]
    by_cases h : j = k
    · subst h
      simp [hn.1]
    · simp [h]

/-- Plotting distinct cells reports a collision where one of them was on. -/
theorem collision_plotAll {ks : List FbCell} (hn : ks.Nodup) (p : Framebuffer × Bool) :
    (plotAll p ks).2 = (p.2 || ks.any (pixelAt p.1)) := by
  induction ks generalizing p with
  | nil => simp [plotAll]
  | cons k ks ih =>
    rw [List.nodup_cons] at hn
    have hrest : ks.any (pixelAt (plot p k).1) = ks.any (pixelAt p.1) := by
      rw [Bool.eq_iff_iff, List.any_eq_true, List.any_eq_true]
      refine exists_congr fun j => and_congr_right fun hj => ?_
      have hjk : j ≠ k := fun h => hn.1 (h ▸ hj)
      simp [plot, pixelAt_flipAt, hjk]
    rw [show plotAll p (k :: ks) = plotAll (plot p k) ks from rfl, ih hn.2, hrest]
    simp [plot, Bool.or_assoc]

/-- The cells of one sprite row. -/
def rowCells (px py : Nat) (row : Byte) : List FbCell :=
  ((List.range 8).filter fun c => row.getLsbD (7 - c)).map fun c => cellAt (px + c) py

/-- The cells of a sprite's rows. -/
def spriteCells (px : Nat) : Nat → List Byte → List FbCell
  | _, [] => []
  | py, row :: rows => rowCells px py row ++ spriteCells px (py + 1) rows

theorem drawRow_eq (px py : Nat) (row : Byte) (p : Framebuffer × Bool) :
    drawRow px py row p = plotAll p (rowCells px py row) := by
  unfold drawRow plotAll rowCells
  generalize List.range 8 = cs
  induction cs generalizing p with
  | nil => rfl
  | cons c cs ih => cases h : row.getLsbD (7 - c) <;> simp [h, ih]

theorem drawRows_eq (px py : Nat) (rows : List Byte) (p : Framebuffer × Bool) :
    drawRows px py rows p = plotAll p (spriteCells px py rows) := by
  induction rows generalizing py p with
  | nil => rfl
  | cons row rows ih => simp [drawRows, ih, drawRow_eq, spriteCells, plotAll]

theorem mem_spriteCells {px py : Nat} {rows : List Byte} {k : FbCell} :
    k ∈ spriteCells px py rows ↔
      ∃ r c, ∃ h : r < rows.length, c < 8 ∧ (rows[r]).getLsbD (7 - c) = true ∧ k = cellAt (px + c) (py + r) := by
  induction rows generalizing py with
  | nil => simp [spriteCells]
  | cons row rows ih =>
    simp only [spriteCells, List.mem_append, ih, rowCells, List.mem_map, List.mem_filter, List.mem_range]
    constructor
    · rintro (⟨c, ⟨h1, h2⟩, rfl⟩ | ⟨r, c, h, h1, h2, rfl⟩)
      · exact ⟨0, c, by simp, h1, by simpa using h2, rfl⟩
      · exact ⟨r + 1, c, by simpa using h, h1, by simpa using h2, by rw [show py + 1 + r = py + (r + 1) by omega]⟩
    · rintro ⟨r, c, h, h1, h2, rfl⟩
      cases r with
      | zero => exact .inl ⟨c, ⟨h1, by simpa using h2⟩, rfl⟩
      | succ r =>
        exact .inr ⟨r, c, by simpa using h, h1, by simpa using h2, by rw [show py + 1 + r = py + (r + 1) by omega]⟩

/-- The cells that DRW plots are those its set pixels reach. -/
theorem mem_spriteCells_iff_lights {s : State} {x y : Reg} {n : Fin 16} {k : FbCell} :
    k ∈ spriteCells (s.getV x).toNat (s.getV y).toNat (s.peekBytes s.i.toNat n.val) ↔ SpriteLights s x y n k := by
  rw [mem_spriteCells]
  constructor
  · rintro ⟨r, c, h, h1, h2, rfl⟩
    have hr : r < n.val := by simpa [State.peekBytes] using h
    refine ⟨r, c, hr, h1, ?_, rfl⟩
    rw [← h2]
    exact congrArg (BitVec.getLsbD · (7 - c)) (memReadBytes_getElem hr).symm
  · rintro ⟨r, c, h, h1, h2, e⟩
    refine ⟨r, c, by simpa [State.peekBytes] using h, h1, ?_, Fin.ext e⟩
    rw [← h2]
    exact congrArg (BitVec.getLsbD · (7 - c)) (memReadBytes_getElem h)

end Sys2Proof.Machine
end

