-- ==== Sys2Proof/Laws/Step.lean ====
section
/-! SUPPORT. What one step can do, said once: a host action, a disabled cycle, a cycle that faults at the fetch,
or a cycle that executes a word. -/

namespace Sys2Proof.Machine

@[simp] theorem State.beginCycle_fetch (s : State) : s.beginCycle.fetch = s.fetch := rfl

@[simp] theorem State.setHost_fetch (s : State) (h : List Turn) : (s.setHost h).fetch = s.fetch := rfl

@[simp] theorem State.setHost_canCycle (s : State) (h : List Turn) :
    (s.setHost h).canCycle = s.canCycle := rfl

theorem State.canCycle_iff {s : State} : s.canCycle = true ↔ s.mstate = .running ∧ s.fault = none := by
  simp [State.canCycle]

/-- A cycle that took a fault ends with nothing but `refresh` put back. -/
theorem endCycle_of_fault {before after : State} (h : after.fault.isSome = true) :
    endCycle before after = { after with refresh := before.refresh } := by
  simp [endCycle, h]

theorem endCycle_of_raise {before s : State} {k : FaultKind} {w : Option Word} {a : Option Nat} :
    endCycle before (s.raise k w a) = { s.raise k w a with refresh := before.refresh } :=
  endCycle_of_fault rfl

/-- A cycle without a fault ends with the frame and the decay. -/
theorem endCycle_of_no_fault {before after : State} (h : after.fault = none) :
    endCycle before after = after.emitFrame.cycleDecay := by
  simp [endCycle, h]

/-- The frame and the decay change the outputs and the timers alone. -/
theorem State.emitFrame_cycleDecay_eq (s : State) :
    s.emitFrame.cycleDecay =
      { s with
        out := if s.refresh then s.out ++ [.frame s.fb] else s.out
        dt := if s.cfg.timerMode = .perCycle then decayTimer s.dt else s.dt
        st := if s.cfg.timerMode = .perCycle then decayTimer s.st else s.st } := by
  unfold State.emitFrame State.cycleDecay
  cases hr : s.refresh <;> cases hm : s.cfg.timerMode <;>
    simp [State.emit, State.decay, hm] <;> simp [← hr]

theorem step_of_no_turn {s : State} (h : s.host = []) : step s = cycle s := by
  unfold step
  rw [h]

theorem step_of_cycle_turn {s : State} {rest : List Turn} (h : s.host = .cycle :: rest) :
    step s = cycle (s.setHost rest) := by
  unfold step
  rw [h]

theorem State.setHost_self {s : State} {rest : List Turn} (h : s.host = rest) : s.setHost rest = s := by
  rw [← h]
  rfl

/-- A step that is a cycle, scheduled by the host or not, is the cycle on the state with the turns left. -/
theorem step_of_cyclesNext {s : State} {rest : List Turn} (h : s.CyclesNext rest) :
    step s = cycle (s.setHost rest) := by
  rcases h with ⟨hh, rfl⟩ | hh
  · rw [step_of_no_turn hh, State.setHost_self hh]
  · exact step_of_cycle_turn hh

theorem step_of_action {s : State} {a : HostAction} {rest : List Turn} (h : s.host = .act a :: rest) :
    step s = .next (hostAct a (s.setHost rest)) := by
  unfold step
  rw [h]

theorem cycle_of_enabled {s : State} (h : s.canCycle = true) :
    cycle s = finishCycle s (fetchExecute s.beginCycle) := by
  rw [cycle, if_pos h]

theorem cycle_of_disabled {s : State} (h : s.canCycle = false) : cycle s = .next s := by
  simp [cycle, h]

/-- An enabled cycle whose fetch succeeds executes the word fetched. -/
theorem cycle_of_fetch {s : State} {w : Word} (h : s.canCycle = true) (hf : s.fetch = .ok w) :
    cycle s = finishCycle s (execWord w s.beginCycle) := by
  rw [cycle_of_enabled h, fetchExecute, State.beginCycle_fetch, hf]

/-- An enabled cycle whose fetch fails takes AddressOutOfRange, with no word in the record. -/
theorem cycle_of_fetch_fault {s : State} {a : Nat} (h : s.canCycle = true) (hf : s.fetch = .error a) :
    cycle s = .next (endCycle s (s.beginCycle.raise .addressOutOfRange none (some a))) := by
  rw [cycle_of_enabled h, fetchExecute, State.beginCycle_fetch, hf]
  rfl

/-- One cycle: disabled and without effect, or a fetch fault, or the execution of the word fetched. -/
theorem cycle_cases {s t : State} (h : cycle s = .next t) :
    (s.canCycle = false ∧ t = s) ∨
    (s.canCycle = true ∧ ∃ a, s.fetch = .error a ∧
      t = endCycle s (s.beginCycle.raise .addressOutOfRange none (some a))) ∨
    (s.canCycle = true ∧ ∃ w u, s.fetch = .ok w ∧ execWord w s.beginCycle = .next u ∧ t = endCycle s u) := by
  unfold cycle at h
  split at h
  · next hc =>
    right
    cases hf : s.fetch with
    | error a =>
      left
      simp only [fetchExecute, State.beginCycle_fetch, hf, finishCycle, Host.Outcome.next.injEq] at h
      exact ⟨hc, a, rfl, h.symm⟩
    | ok w =>
      right
      simp only [fetchExecute, State.beginCycle_fetch, hf] at h
      cases hx : execWord w s.beginCycle with
      | next u =>
        simp only [hx, finishCycle, Host.Outcome.next.injEq] at h
        exact ⟨hc, w, u, rfl, hx, h.symm⟩
      | fault r => cases r
      | refused r => simp [hx, finishCycle] at h
  · next hc =>
    left
    exact ⟨by simpa using hc, by simpa using h.symm⟩

/-- One step: the host's next action, or a cycle on the state without the turn it takes. -/
theorem step_cases {s t : State} (h : step s = .next t) :
    (∃ a rest, s.host = .act a :: rest ∧ t = hostAct a (s.setHost rest)) ∨
    (∃ rest, s.host = .cycle :: rest ∧ cycle (s.setHost rest) = .next t) ∨
    (s.host = [] ∧ cycle s = .next t) := by
  unfold step at h
  split at h
  · next a rest hh => exact .inl ⟨a, rest, hh, by simpa using h.symm⟩
  · next rest hh => exact .inr (.inl ⟨rest, hh, h⟩)
  · next hh => exact .inr (.inr ⟨hh, h⟩)

end Sys2Proof.Machine
end

