-- ==== Sys2Proof/Laws/Host.lean ====
section
/-! SUPPORT. What each host action does where it is admitted and where it is not, and what the reset procedure
leaves in each field. -/

namespace Sys2Proof.Machine

/-! ### The reset procedure -/

@[simp] theorem State.resetProc_v (s : State) : s.resetProc.v = Vector.replicate 16 0#8 := rfl

@[simp] theorem State.resetProc_i (s : State) : s.resetProc.i = 0#16 := rfl

@[simp] theorem State.resetProc_pc (s : State) : s.resetProc.pc = 0x200#16 := rfl

@[simp] theorem State.resetProc_stack (s : State) : s.resetProc.stack = Vector.replicate 16 0#16 := rfl

@[simp] theorem State.resetProc_sp (s : State) : s.resetProc.sp = 0 := rfl

@[simp] theorem State.resetProc_dt (s : State) : s.resetProc.dt = 0#8 := rfl

@[simp] theorem State.resetProc_st (s : State) : s.resetProc.st = 0#8 := rfl

@[simp] theorem State.resetProc_fb (s : State) : s.resetProc.fb = clearFb := rfl

@[simp] theorem State.resetProc_keyBuf (s : State) : s.resetProc.keyBuf = Vector.replicate 16 false := rfl

@[simp] theorem State.resetProc_key (s : State) : s.resetProc.key = Vector.replicate 16 false := rfl

@[simp] theorem State.resetProc_fault (s : State) : s.resetProc.fault = none := rfl

@[simp] theorem State.resetProc_refresh (s : State) : s.resetProc.refresh = false := rfl

@[simp] theorem State.resetProc_mem (s : State) : s.resetProc.mem = [] := rfl

@[simp] theorem State.resetProc_mstate (s : State) : s.resetProc.mstate = s.mstate := rfl

@[simp] theorem State.resetProc_cfg (s : State) : s.resetProc.cfg = s.cfg := rfl

@[simp] theorem State.resetProc_host (s : State) : s.resetProc.host = s.host := rfl

@[simp] theorem State.resetProc_out (s : State) : s.resetProc.out = s.out := rfl

@[simp] theorem State.resetProc_draws (s : State) : s.resetProc.draws = s.draws := rfl

/-! ### The actions -/

theorem hostLoad_of_running {s : State} (bytes : List Byte) (h : s.mstate = .running) : hostLoad bytes s = s :=
  if_pos h

theorem hostLoad_of_too_large {s : State} {bytes : List Byte} (h : s.mstate ≠ .running)
    (hlen : 0x200 + bytes.length > 4096) :
    hostLoad bytes s = State.emit { s.resetProc with mstate := .unloaded } (.loadResult .programTooLarge) :=
  (if_neg h).trans (if_pos hlen)

theorem hostLoad_of_fits {s : State} {bytes : List Byte} (h : s.mstate ≠ .running)
    (hlen : ¬ 0x200 + bytes.length > 4096) :
    hostLoad bytes s =
      State.emit { s.resetProc.pokeBytes 0x200 bytes with mstate := .loaded } (.loadResult .ok) :=
  (if_neg h).trans (if_neg hlen)

/-- An admitted load leaves no fault recorded and the CORE not Running. -/
theorem hostLoad_of_admitted {s : State} (bytes : List Byte) (h : s.mstate ≠ .running) :
    (hostLoad bytes s).fault = none ∧
      (hostLoad bytes s).mstate = if bytes.length ≤ 3584 then .loaded else .unloaded := by
  by_cases hlen : 0x200 + bytes.length > 4096
  · rw [hostLoad_of_too_large h hlen, if_neg (by omega)]
    exact ⟨rfl, rfl⟩
  · rw [hostLoad_of_fits h hlen, if_pos (by omega)]
    exact ⟨rfl, rfl⟩

theorem hostRun_of_admitted {s : State} (h : (s.mstate = .loaded ∨ s.mstate = .stopped) ∧ s.fault = none) :
    hostRun s = { s with mstate := .running } := if_pos h

theorem hostRun_of_not_admitted {s : State}
    (h : ¬ ((s.mstate = .loaded ∨ s.mstate = .stopped) ∧ s.fault = none)) : hostRun s = s := if_neg h

theorem hostStop_of_admitted {s : State} (h : s.mstate = .running) : hostStop s = { s with mstate := .stopped } :=
  if_pos h

theorem hostStop_of_not_admitted {s : State} (h : s.mstate ≠ .running) : hostStop s = s := if_neg h

theorem hostTick_of_admitted {s : State} (h : s.cfg.timerMode = .tick60 ∧ s.mstate = .running) :
    hostTick s = s.decay := if_pos h

theorem hostTick_of_not_admitted {s : State} (h : ¬ (s.cfg.timerMode = .tick60 ∧ s.mstate = .running)) :
    hostTick s = s := if_neg h

theorem hostKey_of_mapped {s : State} {code : Nat} {k : Key} (down : Bool)
    (h : translateKey s.cfg.hostKeymap code = some k) :
    hostKey down code s = { s with keyBuf := s.keyBuf.set k down } := by
  simp [hostKey, h]

theorem hostKey_of_unmapped {s : State} {code : Nat} (down : Bool)
    (h : translateKey s.cfg.hostKeymap code = none) : hostKey down code s = s := by
  simp [hostKey, h]

end Sys2Proof.Machine
end

