-- ==== Sys2Proof/Laws/PerInstr.lean ====
section
/-! SUPPORT. The per-instruction family TableRow: an instruction's word agrees with its row of
spec/opcode_table.json, that is, its bits under the row's mask are the row's match. -/

namespace Sys2Proof.Laws.TableRow

/-- A row's mask and match, as the table gives them. -/
structure Row where
  mask : Word
  bits : Word
deriving DecidableEq, Repr

/-- The row of each instruction in spec/opcode_table.json. -/
def row : Instr → Row
  | .cls => ⟨0xFFFF#16, 0x00E0#16⟩
  | .ret => ⟨0xFFFF#16, 0x00EE#16⟩
  | .sys _ => ⟨0xF000#16, 0x0000#16⟩
  | .jp _ => ⟨0xF000#16, 0x1000#16⟩
  | .call _ => ⟨0xF000#16, 0x2000#16⟩
  | .seImm _ _ => ⟨0xF000#16, 0x3000#16⟩
  | .sneImm _ _ => ⟨0xF000#16, 0x4000#16⟩
  | .seReg _ _ => ⟨0xF00F#16, 0x5000#16⟩
  | .ldImm _ _ => ⟨0xF000#16, 0x6000#16⟩
  | .addImm _ _ => ⟨0xF000#16, 0x7000#16⟩
  | .ldReg _ _ => ⟨0xF00F#16, 0x8000#16⟩
  | .orReg _ _ => ⟨0xF00F#16, 0x8001#16⟩
  | .andReg _ _ => ⟨0xF00F#16, 0x8002#16⟩
  | .xorReg _ _ => ⟨0xF00F#16, 0x8003#16⟩
  | .addReg _ _ => ⟨0xF00F#16, 0x8004#16⟩
  | .subReg _ _ => ⟨0xF00F#16, 0x8005#16⟩
  | .shr _ _ => ⟨0xF00F#16, 0x8006#16⟩
  | .subnReg _ _ => ⟨0xF00F#16, 0x8007#16⟩
  | .shl _ _ => ⟨0xF00F#16, 0x800E#16⟩
  | .sneReg _ _ => ⟨0xF00F#16, 0x9000#16⟩
  | .ldI _ => ⟨0xF000#16, 0xA000#16⟩
  | .jpV0 _ => ⟨0xF000#16, 0xB000#16⟩
  | .rnd _ _ => ⟨0xF000#16, 0xC000#16⟩
  | .drw _ _ _ => ⟨0xF000#16, 0xD000#16⟩
  | .skp _ => ⟨0xF0FF#16, 0xE09E#16⟩
  | .sknp _ => ⟨0xF0FF#16, 0xE0A1#16⟩
  | .ldVxDt _ => ⟨0xF0FF#16, 0xF007#16⟩
  | .ldVxK _ => ⟨0xF0FF#16, 0xF00A#16⟩
  | .ldDtVx _ => ⟨0xF0FF#16, 0xF015#16⟩
  | .ldStVx _ => ⟨0xF0FF#16, 0xF018#16⟩
  | .addI _ => ⟨0xF0FF#16, 0xF01E#16⟩
  | .ldF _ => ⟨0xF0FF#16, 0xF029#16⟩
  | .ldB _ => ⟨0xF0FF#16, 0xF033#16⟩
  | .storeRegs _ => ⟨0xF0FF#16, 0xF055#16⟩
  | .loadRegs _ => ⟨0xF0FF#16, 0xF065#16⟩

/-- The instruction's word has the fixed bits of its table row. -/
def Statement (i : Instr) : Prop := encodeWord i &&& (row i).mask = (row i).bits

theorem and_ones4 (b : BitVec 4) : b &&& 0xF#4 = b := BitVec.and_allOnes

theorem and_ones8 (b : BitVec 8) : b &&& 0xFF#8 = b := BitVec.and_allOnes

/-- The mask of the format `Oxyn` with n fixed keeps `op` and `n`. -/
theorem mask_xyn (op n : BitVec 4) (x y : Reg) : wordXYN op x y n &&& 0xF00F#16 = wordXYN op 0 0 n := by
  show (op ++ nibble x ++ nibble y ++ n : BitVec (4 + 4 + 4 + 4)) &&&
    (0xF#4 ++ 0x0#4 ++ 0x0#4 ++ 0xF#4) = op ++ 0x0#4 ++ 0x0#4 ++ n
  simp only [BitVec.and_append, and_ones4, BitVec.and_zero]

/-- The mask of the format `Oxnn` with nn fixed keeps `op` and `nn`. -/
theorem mask_xnn (op : BitVec 4) (x : Reg) (nn : Byte) : wordXNN op x nn &&& 0xF0FF#16 = wordXNN op 0 nn := by
  show (op ++ nibble x ++ nn : BitVec (4 + 4 + 8)) &&& (0xF#4 ++ 0x0#4 ++ 0xFF#8) = op ++ 0x0#4 ++ nn
  simp only [BitVec.and_append, and_ones4, and_ones8, BitVec.and_zero]

/-- The mask of the other formats keeps `op` alone. -/
theorem mask_op (w : Word) : w &&& 0xF000#16 = wordNNN (fieldOp w) 0 := by
  conv_lhs => rw [← wordNNN_fields w]
  show (fieldOp w ++ fieldNNN w : BitVec (4 + 12)) &&& (0xF#4 ++ 0x000#12) = fieldOp w ++ 0x000#12
  simp only [BitVec.and_append, and_ones4, BitVec.and_zero]

theorem cls : Statement (.cls) := by
  rfl
theorem ret : Statement (.ret) := by
  rfl
theorem sys (nnn : Addr) : Statement (.sys nnn) := by
  exact (mask_op _).trans (by simp [encodeWord]; rfl)
theorem jp (nnn : Addr) : Statement (.jp nnn) := by
  exact (mask_op _).trans (by simp [encodeWord]; rfl)
theorem call (nnn : Addr) : Statement (.call nnn) := by
  exact (mask_op _).trans (by simp [encodeWord]; rfl)
theorem seImm (x : Reg) (nn : Byte) : Statement (.seImm x nn) := by
  exact (mask_op _).trans (by simp [encodeWord]; rfl)
theorem sneImm (x : Reg) (nn : Byte) : Statement (.sneImm x nn) := by
  exact (mask_op _).trans (by simp [encodeWord]; rfl)
theorem seReg (x : Reg) (y : Reg) : Statement (.seReg x y) := by
  exact mask_xyn _ _ x y
theorem ldImm (x : Reg) (nn : Byte) : Statement (.ldImm x nn) := by
  exact (mask_op _).trans (by simp [encodeWord]; rfl)
theorem addImm (x : Reg) (nn : Byte) : Statement (.addImm x nn) := by
  exact (mask_op _).trans (by simp [encodeWord]; rfl)
theorem ldReg (x : Reg) (y : Reg) : Statement (.ldReg x y) := by
  exact mask_xyn _ _ x y
theorem orReg (x : Reg) (y : Reg) : Statement (.orReg x y) := by
  exact mask_xyn _ _ x y
theorem andReg (x : Reg) (y : Reg) : Statement (.andReg x y) := by
  exact mask_xyn _ _ x y
theorem xorReg (x : Reg) (y : Reg) : Statement (.xorReg x y) := by
  exact mask_xyn _ _ x y
theorem addReg (x : Reg) (y : Reg) : Statement (.addReg x y) := by
  exact mask_xyn _ _ x y
theorem subReg (x : Reg) (y : Reg) : Statement (.subReg x y) := by
  exact mask_xyn _ _ x y
theorem shr (x : Reg) (y : Reg) : Statement (.shr x y) := by
  exact mask_xyn _ _ x y
theorem subnReg (x : Reg) (y : Reg) : Statement (.subnReg x y) := by
  exact mask_xyn _ _ x y
theorem shl (x : Reg) (y : Reg) : Statement (.shl x y) := by
  exact mask_xyn _ _ x y
theorem sneReg (x : Reg) (y : Reg) : Statement (.sneReg x y) := by
  exact mask_xyn _ _ x y
theorem ldI (nnn : Addr) : Statement (.ldI nnn) := by
  exact (mask_op _).trans (by simp [encodeWord]; rfl)
theorem jpV0 (nnn : Addr) : Statement (.jpV0 nnn) := by
  exact (mask_op _).trans (by simp [encodeWord]; rfl)
theorem rnd (x : Reg) (nn : Byte) : Statement (.rnd x nn) := by
  exact (mask_op _).trans (by simp [encodeWord]; rfl)
theorem drw (x : Reg) (y : Reg) (n : Fin 16) : Statement (.drw x y n) := by
  exact (mask_op _).trans (by simp [encodeWord]; rfl)
theorem skp (x : Reg) : Statement (.skp x) := by
  exact mask_xnn _ x _
theorem sknp (x : Reg) : Statement (.sknp x) := by
  exact mask_xnn _ x _
theorem ldVxDt (x : Reg) : Statement (.ldVxDt x) := by
  exact mask_xnn _ x _
theorem ldVxK (x : Reg) : Statement (.ldVxK x) := by
  exact mask_xnn _ x _
theorem ldDtVx (x : Reg) : Statement (.ldDtVx x) := by
  exact mask_xnn _ x _
theorem ldStVx (x : Reg) : Statement (.ldStVx x) := by
  exact mask_xnn _ x _
theorem addI (x : Reg) : Statement (.addI x) := by
  exact mask_xnn _ x _
theorem ldF (x : Reg) : Statement (.ldF x) := by
  exact mask_xnn _ x _
theorem ldB (x : Reg) : Statement (.ldB x) := by
  exact mask_xnn _ x _
theorem storeRegs (x : Reg) : Statement (.storeRegs x) := by
  exact mask_xnn _ x _
theorem loadRegs (x : Reg) : Statement (.loadRegs x) := by
  exact mask_xnn _ x _

end Sys2Proof.Laws.TableRow
end

