-- ==== Sys2Proof/Tests/Slice0.lean ====
section
/-! SUPPORT. Tests of the model and witnesses of the statements.  Expected values come from the vectors of
95_test_vectors.md, whose ids the comments name, and from the patterns of 30_encoding.md rule R96. -/

namespace Sys2Proof.Tests

open Sys2Proof.Machine

/-! ### Well-formedness -/

theorem test_wf_refuses_sys_that_is_cls : (Instr.sys 0x0E0#12).wf = false := by decide

theorem test_wf_refuses_sys_that_is_ret : (Instr.sys 0x0EE#12).wf = false := by decide

theorem test_wf_accepts_sys_beside_them :
    (Instr.sys 0x0DF#12).wf = true ∧ (Instr.sys 0x0EF#12).wf = true ∧ (Instr.sys 0x1E0#12).wf = true := by
  decide

/-! ### Decoding: words written out bit by bit from R96, one for every constructor -/

theorem test_decode_display :
    decodeWord 0b0000000011100000#16 = .ok .cls ∧
    decodeWord 0b1101000100101111#16 = .ok (.drw 1 2 15) := by decide

theorem test_decode_control_flow :
    decodeWord 0b0000000011101110#16 = .ok .ret ∧
    decodeWord 0b0000000100100011#16 = .ok (.sys 0x123#12) ∧
    decodeWord 0b0001101010111100#16 = .ok (.jp 0xABC#12) ∧
    decodeWord 0b0010001000001100#16 = .ok (.call 0x20C#12) ∧
    decodeWord 0b1011001100000000#16 = .ok (.jpV0 0x300#12) := by decide

theorem test_decode_skips :
    decodeWord 0b0011101000001000#16 = .ok (.seImm 10 0x08#8) ∧
    decodeWord 0b0100101000001000#16 = .ok (.sneImm 10 0x08#8) ∧
    decodeWord 0b0101000100100000#16 = .ok (.seReg 1 2) ∧
    decodeWord 0b1001000100100000#16 = .ok (.sneReg 1 2) := by decide

theorem test_decode_immediates :
    decodeWord 0b0110101000000101#16 = .ok (.ldImm 10 0x05#8) ∧
    decodeWord 0b0111101000000011#16 = .ok (.addImm 10 0x03#8) ∧
    decodeWord 0b1100001100001111#16 = .ok (.rnd 3 0x0F#8) := by decide

theorem test_decode_alu :
    decodeWord 0b1000000100100000#16 = .ok (.ldReg 1 2) ∧
    decodeWord 0b1000000100100001#16 = .ok (.orReg 1 2) ∧
    decodeWord 0b1000000100100010#16 = .ok (.andReg 1 2) ∧
    decodeWord 0b1000000100100011#16 = .ok (.xorReg 1 2) ∧
    decodeWord 0b1000000100100100#16 = .ok (.addReg 1 2) ∧
    decodeWord 0b1000000100100101#16 = .ok (.subReg 1 2) ∧
    decodeWord 0b1000000101010110#16 = .ok (.shr 1 5) ∧
    decodeWord 0b1000000100100111#16 = .ok (.subnReg 1 2) ∧
    decodeWord 0b1000000101011110#16 = .ok (.shl 1 5) := by decide

theorem test_decode_index_and_memory :
    decodeWord 0b1010001000000010#16 = .ok (.ldI 0x202#12) ∧
    decodeWord 0b1111001000011110#16 = .ok (.addI 2) ∧
    decodeWord 0b1111010100101001#16 = .ok (.ldF 5) ∧
    decodeWord 0b1111000000110011#16 = .ok (.ldB 0) ∧
    decodeWord 0b1111000101010101#16 = .ok (.storeRegs 1) ∧
    decodeWord 0b1111001001100101#16 = .ok (.loadRegs 2) := by decide

theorem test_decode_keys_and_timers :
    decodeWord 0b1110010110011110#16 = .ok (.skp 5) ∧
    decodeWord 0b1110010110100001#16 = .ok (.sknp 5) ∧
    decodeWord 0b1111010000000111#16 = .ok (.ldVxDt 4) ∧
    decodeWord 0b1111010100001010#16 = .ok (.ldVxK 5) ∧
    decodeWord 0b1111001100010101#16 = .ok (.ldDtVx 3) ∧
    decodeWord 0b1111001100011000#16 = .ok (.ldStVx 3) := by decide

/-- The byte at the lower address is the high one (E9). -/
theorem test_decode_big_endian : decode [0x6A#8, 0x05#8] = .ok (.ldImm 10 0x05#8, []) := by decide

/-- V-SK7, V-SK10, V-A33, V-KT6, V-KT15: words that name no instruction. -/
theorem test_decode_unknown :
    decodeWord 0x5121#16 = .error (.unknown 0x5121#16) ∧ decodeWord 0x912F#16 = .error (.unknown 0x912F#16) ∧
    decodeWord 0x8128#16 = .error (.unknown 0x8128#16) ∧ decodeWord 0xE5FF#16 = .error (.unknown 0xE5FF#16) ∧
    decodeWord 0xF0FF#16 = .error (.unknown 0xF0FF#16) := by decide

theorem test_decode_truncated : decode [] = .error .truncated ∧ decode [0x6A#8] = .error .truncated := by decide

theorem test_decodeTableWord : decodeTableWord 16 0xD125 = some (.drw 1 2 5) := by decide

/-! ### One step of each instruction, from the start state of the vectors -/

/-- The vectors' start state, with the instruction word at `pc`, and registers set from a list. -/
def start (w : Nat) (regs : List (Reg × Byte) := []) : State :=
  regs.foldl (fun s p => s.setV p.1 p.2) (State.reset.withFetchWord 16 w)

/-- The same with I set and bytes of memory placed. -/
def startAt (w : Nat) (i : Word) (bytes : List Byte) (regs : List (Reg × Byte) := []) : State :=
  ((start w regs).setI i).pokeBytes i.toNat bytes

/-- What a projection of the next state shows, where the step answers one. -/
def ran {α : Type} (s : State) (f : State → α) : Option α :=
  match step s with
  | .next t => some (f t)
  | _ => none

/-- The outputs of R40 that a fault leaves, with the record: (kind, pc, word, address). -/
def faultOf (t : State) : Option FaultRecord × MState × List Output := (t.fault, t.mstate, t.out)

/-- What `faultOf` shows after a fault taken with nothing emitted before. -/
def faulted (r : FaultRecord) : Option FaultRecord × MState × List Output :=
  (some r, .stopped, [.faultReport r])

/-- V-D1: three cells on. -/
theorem test_cls : ran ((start 0x00E0).setFb (flipAt (flipAt (flipAt clearFb 0) 5) 2047))
    (fun t => (t.fb, t.out, t.pc)) = some (clearFb, [.frame clearFb], 0x202#16) := by decide

/-- V-D3: glyph 0, whose rows have columns 0 to 3 on, or columns 0 and 3.  V-D5: a collision in one cell of
two.  V-D7: past the right edge into the next row.  V-D8: past the last row.  V-D10: x = F, with the
coordinates read before VF is written. -/
theorem test_drw :
    ran (start 0xD005) (fun t => (t.fb.toList.take 6, t.getV 15, t.pc)) =
      some ([0xF#64, 0x9#64, 0x9#64, 0x9#64, 0xF#64, 0#64], 0#8, 0x202#16) ∧
    ran ((startAt 0xD011 0x300#16 [0xC0#8]).setFb (flipAt clearFb 1))
      (fun t => (pixelAt t.fb 0, pixelAt t.fb 1, t.getV 15)) = some (true, false, 1#8) ∧
    ran (startAt 0xD011 0x300#16 [0xFF#8] [(0, 63#8)])
      (fun t => ([62, 63, 64, 70, 71].map (pixelAt t.fb), t.getV 15)) =
      some ([false, true, true, true, false], 0#8) ∧
    ran (startAt 0xD012 0x300#16 [0x80#8, 0x80#8] [(1, 31#8)])
      (fun t => [1984, 0, 1].map (pixelAt t.fb)) = some [true, true, false] ∧
    ran (startAt 0xDF01 0x300#16 [0x80#8] [(15, 3#8)])
      (fun t => (pixelAt t.fb 3, t.getV 15)) = some (true, 0#8) := by decide

/-- V-D6: no rows.  V-D11: a row past the top of memory. -/
theorem test_drw_no_rows_and_fault :
    ran (startAt 0xD010 0x300#16 [] [(15, 1#8)]) (fun t => (t.fb, t.getV 15, t.out)) =
      some (clearFb, 0#8, [.frame clearFb]) ∧
    ran (startAt 0xD003 0xFFE#16 []) (fun t => (faultOf t, t.fb, t.pc)) =
      some (faulted ⟨.addressOutOfRange, 0x200#16, some 0xD003#16, some 0x1000⟩, clearFb, 0x200#16) := by decide

/-- The start state at pc = 0x300 that the control-flow vectors use. -/
def startAt300 (w : Nat) : State := State.withFetchWord { State.reset with pc := 0x300#16 } 16 w

/-- V-CF1. -/
theorem test_ret : ran { startAt300 0x00EE with sp := 1, stack := State.reset.stack.set 0 0x202#16 }
    (fun t => (t.pc, t.sp)) = some (0x202#16, 0) := by decide

/-- V-CF2, E8. -/
theorem test_ret_underflow : ran (startAt300 0x00EE) (fun t => (faultOf t, t.sp, t.pc)) =
    some (faulted ⟨.stackUnderflow, 0x300#16, some 0x00EE#16, none⟩, 0, 0x300#16) := by decide

/-- V-CF3. -/
theorem test_sys_skip : ran (startAt300 0x0123) (fun t => (t.out, t.pc, t.mstate)) =
    some ([.unknownOpcode 0x300#16 0x0123#16], 0x302#16, .running) := by decide

/-- V-CF4. -/
theorem test_sys_halt :
    ran { startAt300 0x0123 with cfg := { defaultConfig with unknownOpcode := .halt } }
      (fun t => (faultOf t, t.pc)) =
      some (faulted ⟨.unknownOpcode, 0x300#16, some 0x0123#16, none⟩, 0x300#16) := by decide

/-- V-CF5, V-CF9. -/
theorem test_jp : ran (startAt300 0x1ABC) (·.pc) = some 0xABC#16 ∧
    ran (startAt300 0x1301) (fun t => (t.pc, t.fault)) = some (0x301#16, none) := by decide

/-- V-CF6: the sixteenth entry. -/
theorem test_call : ran { startAt300 0x2400 with sp := 15 } (fun t => (t.stack[15], t.sp, t.pc)) =
    some (0x302#16, 16, 0x400#16) := by decide

/-- V-CF7, E5. -/
theorem test_call_overflow : ran { startAt300 0x2400 with sp := 16 } (fun t => (faultOf t, t.sp, t.pc)) =
    some (faulted ⟨.stackOverflow, 0x300#16, some 0x2400#16, none⟩, 16, 0x300#16) := by decide

/-- V-CF10, V-CF11. -/
theorem test_jpV0 : ran (start 0xB300 [(0, 0x10#8)]) (·.pc) = some 0x310#16 ∧
    ran (start 0xBFFF [(0, 0xFF#8)]) (fun t => (t.pc, t.fault)) = some (0x10FE#16, none) := by decide

/-- V-SK1, V-SK2. -/
theorem test_seImm : ran (start 0x3A08 [(10, 8#8)]) (·.pc) = some 0x204#16 ∧
    ran (start 0x3A08 [(10, 7#8)]) (·.pc) = some 0x202#16 := by decide

/-- V-SK3, V-SK4. -/
theorem test_sneImm : ran (start 0x4A08 [(10, 8#8)]) (·.pc) = some 0x202#16 ∧
    ran (start 0x4A08 [(10, 7#8)]) (·.pc) = some 0x204#16 := by decide

/-- V-SK5, V-SK6. -/
theorem test_seReg : ran (start 0x5120 [(1, 3#8), (2, 3#8)]) (·.pc) = some 0x204#16 ∧
    ran (start 0x5120 [(1, 3#8), (2, 4#8)]) (·.pc) = some 0x202#16 := by decide

/-- V-SK8, V-SK9. -/
theorem test_sneReg : ran (start 0x9120 [(1, 3#8), (2, 4#8)]) (·.pc) = some 0x204#16 ∧
    ran (start 0x9120 [(1, 3#8), (2, 3#8)]) (·.pc) = some 0x202#16 := by decide

/-- V-A1, V-A2. -/
theorem test_ldImm : ran (start 0x6A05) (fun t => (t.getV 10, t.pc)) = some (5#8, 0x202#16) ∧
    ran (start 0x6F07) (·.getV 15) = some 7#8 := by decide

/-- V-A3, V-A4. -/
theorem test_addImm : ran (start 0x7A03 [(10, 5#8)]) (·.getV 10) = some 8#8 ∧
    ran (start 0x7AFF [(10, 1#8), (15, 9#8)]) (fun t => (t.getV 10, t.getV 15)) = some (0#8, 9#8) := by decide

/-- V-A5. -/
theorem test_ldReg : ran (start 0x8120 [(2, 0x33#8)]) (fun t => (t.getV 1, t.getV 2)) =
    some (0x33#8, 0x33#8) := by decide

/-- V-A6. -/
theorem test_orReg : ran (start 0x8121 [(1, 0xF0#8), (2, 0x0F#8), (15, 7#8)])
    (fun t => (t.getV 1, t.getV 15)) = some (0xFF#8, 7#8) := by decide

/-- V-A7. -/
theorem test_andReg : ran (start 0x8122 [(1, 0xF0#8), (2, 0x3C#8)]) (·.getV 1) = some 0x30#8 := by decide

/-- V-A8, V-A9. -/
theorem test_xorReg : ran (start 0x8123 [(1, 0xFF#8), (2, 0x0F#8)]) (·.getV 1) = some 0xF0#8 ∧
    ran (start 0x8113 [(1, 0x5A#8)]) (·.getV 1) = some 0#8 := by decide

/-- The register that a vector names, and VF. -/
def withFlag (x : Reg) (t : State) : Byte × Byte := (t.getV x, t.getV 15)

/-- The start state under the other VF_ORDER. -/
def flagLast (s : State) : State := { s with cfg := { defaultConfig with vfOrder := .resultThenFlag } }

/-- V-A10, V-A11. -/
theorem test_addReg : ran (start 0x8124 [(1, 0xFF#8), (2, 1#8)]) (withFlag 1) = some (0#8, 1#8) ∧
    ran (start 0x8124 [(1, 0x7F#8), (2, 0x80#8)]) (withFlag 1) = some (0xFF#8, 0#8) := by decide

/-- V-A13, V-A14, V-A15: VF as an operand. -/
theorem test_addReg_vf : ran (start 0x8F24 [(15, 0xFF#8), (2, 1#8)]) (·.getV 15) = some 0#8 ∧
    ran (flagLast (start 0x8F24 [(15, 0xFF#8), (2, 1#8)])) (·.getV 15) = some 1#8 ∧
    ran (start 0x81F4 [(1, 0x10#8), (15, 0x20#8)]) (withFlag 1) = some (0x30#8, 0#8) := by decide

/-- V-A16, V-A17, V-A18. -/
theorem test_subReg : ran (start 0x8125 [(1, 5#8), (2, 7#8)]) (withFlag 1) = some (0xFE#8, 0#8) ∧
    ran (start 0x8125 [(1, 5#8), (2, 5#8)]) (withFlag 1) = some (0#8, 1#8) ∧
    ran (start 0x8125 [(1, 7#8), (2, 5#8)]) (withFlag 1) = some (2#8, 1#8) := by decide

/-- V-A20, V-A21. -/
theorem test_subReg_vf : ran (start 0x8F25 [(15, 7#8), (2, 5#8)]) (·.getV 15) = some 2#8 ∧
    ran (flagLast (start 0x8F25 [(15, 7#8), (2, 5#8)])) (·.getV 15) = some 1#8 := by decide

/-- V-A22, V-A23. -/
theorem test_shr : ran (start 0x8106 [(1, 5#8)]) (withFlag 1) = some (2#8, 1#8) ∧
    ran (start 0x8156 [(1, 0x80#8), (5, 0xFF#8)]) (withFlag 1) = some (0x40#8, 0#8) := by decide

/-- V-A25, V-A26. -/
theorem test_shr_vf : ran (start 0x8FF6 [(15, 2#8)]) (·.getV 15) = some 1#8 ∧
    ran (flagLast (start 0x8FF6 [(15, 2#8)])) (·.getV 15) = some 0#8 := by decide

/-- V-A27, V-A28, V-A29. -/
theorem test_subnReg : ran (start 0x8127 [(1, 3#8), (2, 10#8)]) (withFlag 1) = some (7#8, 1#8) ∧
    ran (start 0x8127 [(1, 1#8), (2, 0#8)]) (withFlag 1) = some (0xFF#8, 0#8) ∧
    ran (start 0x8127 [(1, 9#8), (2, 9#8)]) (withFlag 1) = some (0#8, 1#8) := by decide

/-- V-A30, V-A31, V-A32. -/
theorem test_shl : ran (start 0x810E [(1, 0x81#8)]) (withFlag 1) = some (2#8, 1#8) ∧
    ran (start 0x810E [(1, 0x7F#8), (15, 1#8)]) (withFlag 1) = some (0xFE#8, 0#8) ∧
    ran (start 0x8FFE [(15, 0x81#8)]) (·.getV 15) = some 2#8 := by decide

/-- V-A34 for whatever byte is drawn: the high four bits are masked off. -/
theorem test_rnd : ran (start 0xC30F) (fun t => (t.getV 3, t.draws)) =
    some (Config.randomByte 0 &&& 0x0F#8, 1) := rfl

/-- V-A35. -/
theorem test_rnd_zero_mask : ran (start 0xC300 [(3, 9#8)]) (·.getV 3) = some 0#8 := by
  rw [show ran (start 0xC300 [(3, 9#8)]) (·.getV 3) = some (Config.randomByte 0 &&& 0#8) from rfl]
  simp

/-- V-IM1. -/
theorem test_ldI : ran (start 0xA202) (fun t => (t.i, t.pc)) = some (0x202#16, 0x202#16) := by decide

/-- V-IM3, V-IM4. -/
theorem test_addI : ran (startAt 0xF21E 0xFFFF#16 [] [(2, 1#8)]) (·.i) = some 0#16 ∧
    ran (startAt 0xF21E 0xFFF#16 [] [(2, 1#8), (15, 5#8)]) (fun t => (t.i, t.getV 15)) =
      some (0x1000#16, 5#8) := by decide

/-- V-IM5, V-IM6. -/
theorem test_ldF : ran (start 0xF529 [(5, 5#8)]) (·.i) = some 0x019#16 ∧
    ran (start 0xF529 [(5, 15#8)]) (·.i) = some 0x04B#16 := by decide

/-- V-IM7, V-IM8. -/
theorem test_ldF_past_f :
    ran (start 0xF529 [(5, 0x10#8)]) (fun t => (faultOf t, t.i, t.pc)) =
      some (faulted ⟨.fontIndexOutOfRange, 0x200#16, some 0xF529#16, none⟩, 0#16, 0x200#16) ∧
    ran { start 0xF529 [(5, 0x10#8)] with cfg := { defaultConfig with fontIndex := .lowNibble } }
      (fun t => (t.i, t.pc)) = some (0#16, 0x202#16) := by decide

/-- V-IM9, V-IM22: the second crosses the font region's edge. -/
theorem test_ldB :
    ran (startAt 0xF033 0x300#16 [] [(0, 125#8)]) (fun t => (t.peekBytes 0x300 4, t.i)) =
      some ([1#8, 2#8, 5#8, 0#8], 0x300#16) ∧
    ran { startAt 0xF033 0x04F#16 [] [(0, 123#8)] with cfg := { defaultConfig with fontWrite := .write } }
      (·.peekBytes 0x04F 3) = some [1#8, 2#8, 3#8] := by decide

/-- V-IM12, V-IM21. -/
theorem test_ldB_faults :
    ran (startAt 0xF033 0xFFE#16 [] [(0, 1#8)]) (fun t => (faultOf t, t.peekBytes 0xFFE 2)) =
      some (faulted ⟨.addressOutOfRange, 0x200#16, some 0xF033#16, some 0x1000⟩, [0#8, 0#8]) ∧
    ran (startAt 0xF033 0x04F#16 [] [(0, 1#8)]) faultOf =
      some (faulted ⟨.fontRegionWrite, 0x200#16, some 0xF033#16, some 0x04F⟩) := by decide

/-- V-IM13, V-IM14. -/
theorem test_storeRegs :
    ran (startAt 0xF155 0x400#16 [] [(0, 1#8), (1, 2#8)]) (fun t => (t.peekBytes 0x400 3, t.i)) =
      some ([1#8, 2#8, 0#8], 0x402#16) ∧
    ran (startAt 0xF055 0x400#16 [] [(0, 9#8)]) (fun t => (t.peek 0x400, t.i)) =
      some (9#8, 0x401#16) := by decide

/-- V-IM16, V-IM17. -/
theorem test_storeRegs_faults :
    ran (startAt 0xF155 0xFFF#16 [] [(0, 1#8), (1, 2#8)]) (fun t => (faultOf t, t.peek 0xFFF, t.i)) =
      some (faulted ⟨.addressOutOfRange, 0x200#16, some 0xF155#16, some 0x1000⟩, 0#8, 0xFFF#16) ∧
    ran (startAt 0xF155 0x040#16 [] [(0, 1#8)]) faultOf =
      some (faulted ⟨.fontRegionWrite, 0x200#16, some 0xF155#16, some 0x040⟩) := by decide

/-- V-IM18, V-IM19: the second reads the font. -/
theorem test_loadRegs :
    ran (startAt 0xF265 0x300#16 [1#8, 2#8, 5#8, 7#8]) (fun t => (t.v.toList.take 4, t.i)) =
      some ([1#8, 2#8, 5#8, 0#8], 0x303#16) ∧
    ran (start 0xFF65) (fun t => (t.v.toList, t.i)) =
      some ([0xF0#8, 0x90#8, 0x90#8, 0x90#8, 0xF0#8, 0x20#8, 0x60#8, 0x20#8, 0x20#8, 0x70#8, 0xF0#8, 0x10#8,
        0xF0#8, 0x80#8, 0xF0#8, 0xF0#8], 0x010#16) := by decide

/-- V-IM20. -/
theorem test_loadRegs_fault :
    ran (startAt 0xF165 0xFFF#16 []) (fun t => (faultOf t, t.v.toList.take 2, t.i)) =
      some (faulted ⟨.addressOutOfRange, 0x200#16, some 0xF165#16, some 0x1000⟩, [0#8, 0#8], 0xFFF#16) := by decide

/-- The key buffer with the keys of a list down. -/
def down (ks : List Key) : Vector Bool 16 :=
  ks.foldl (fun (kb : Vector Bool 16) (k : Key) => kb.set k true) (Vector.replicate 16 false)

/-- V-KT1, V-KT2. -/
theorem test_skp :
    ran { start 0xE59E [(5, 7#8)] with keyBuf := down [7] } (·.pc) = some 0x204#16 ∧
    ran (start 0xE59E [(5, 7#8)]) (·.pc) = some 0x202#16 := by decide

/-- V-KT5. -/
theorem test_skp_past_f : ran (start 0xE59E [(5, 0x10#8)]) (fun t => (faultOf t, t.pc)) =
    some (faulted ⟨.keyIndexOutOfRange, 0x200#16, some 0xE59E#16, none⟩, 0x200#16) := by decide

/-- V-KT3, V-KT4. -/
theorem test_sknp :
    ran (start 0xE5A1 [(5, 7#8)]) (·.pc) = some 0x204#16 ∧
    ran { start 0xE5A1 [(5, 7#8)] with keyBuf := down [7] } (·.pc) = some 0x202#16 := by decide

/-- V-KT7: it waits, and the timers decay. -/
theorem test_ldVxK_waits : ran ((start 0xF50A).setDT 5#8) (fun t => (t.pc, t.dt, t.mstate)) =
    some (0x200#16, 4#8, .running) := by decide

/-- V-KT8, V-KT9. -/
theorem test_ldVxK :
    ran { start 0xF50A with keyBuf := down [9, 3] } (fun t => (t.getV 5, t.pc)) = some (3#8, 0x202#16) ∧
    ran { start 0xFF0A with keyBuf := down [15] } (·.getV 15) = some 15#8 := by decide

/-- V-KT10. -/
theorem test_ldVxDt : ran ((start 0xF407).setDT 0x13#8) (fun t => (t.getV 4, t.dt)) =
    some (0x13#8, 0x12#8) := by decide

/-- V-KT11, V-KT12. -/
theorem test_ldDtVx : ran (start 0xF315 [(3, 20#8)]) (·.dt) = some 19#8 ∧
    ran ((start 0xF315).setDT 4#8) (·.dt) = some 0#8 := by decide

/-- V-KT13, V-KT14. -/
theorem test_ldStVx : ran (start 0xF318 [(3, 2#8)]) (·.st) = some 1#8 ∧
    ran (start 0xF318 [(3, 1#8)]) (·.st) = some 0#8 := by decide

/-! ### Fetch, cycle and machine control -/

/-- V-KT15, V-KT16: an UNKNOWN word under both policies. -/
theorem test_unknown_word :
    ran (start 0xF0FF) (fun t => (t.out, t.pc)) = some ([.unknownOpcode 0x200#16 0xF0FF#16], 0x202#16) ∧
    ran { start 0xF0FF with cfg := { defaultConfig with unknownOpcode := .halt } }
      (fun t => (faultOf t, t.pc)) =
      some (faulted ⟨.unknownOpcode, 0x200#16, some 0xF0FF#16, none⟩, 0x200#16) := by decide

/-- R260: the numeric codes, in the order of its table. -/
theorem test_fault_codes :
    [FaultKind.addressOutOfRange, .stackOverflow, .stackUnderflow, .unknownOpcode, .fontRegionWrite,
      .keyIndexOutOfRange, .fontIndexOutOfRange].map faultCode = [1, 2, 3, 4, 5, 6, 7] := by decide

/-- V-M1: the last word of memory, a jump to itself. -/
theorem test_fetch_last_word : ran (State.withFetchWord { State.reset with pc := 0xFFE#16 } 16 0x1FFE)
    (fun t => (t.pc, t.mstate)) = some (0xFFE#16, .running) := by decide

/-- V-M2: a fetch past the top of memory. -/
theorem test_fetch_fault : ran { start 0 with pc := 0xFFF#16 } faultOf =
    some (faulted ⟨.addressOutOfRange, 0xFFF#16, none, some 0x1000⟩) := by decide

/-- V-M3: an odd `pc`. -/
theorem test_fetch_odd : ran (State.withFetchWord { State.reset with pc := 0x301#16 } 16 0x6A05)
    (fun t => (t.getV 10, t.pc)) = some (5#8, 0x303#16) := by decide

/-- A state whose next turn is a host action. -/
def hostTurn (a : HostAction) (s : State) : State := s.setHost [.act a]

/-- A state stopped by a fault. -/
def stoppedByFault : State :=
  { State.reset with mstate := .stopped, fault := some ⟨.stackUnderflow, 0x200#16, some 0x00EE#16, none⟩ }

/-- V-M4, V-M5, V-M7. -/
theorem test_run_and_stop :
    ran (hostTurn .run { State.reset with mstate := .stopped }) (·.mstate) = some .running ∧
    ran (hostTurn .run stoppedByFault) id = some stoppedByFault ∧
    ran (hostTurn .stop (start 0)) (·.mstate) = some .stopped := by decide

/-- V-M6: a load clears the fault and places the ROM. -/
theorem test_load : ran (hostTurn (.loadProgram [0x12#8, 0x00#8]) stoppedByFault)
    (fun t => (t.mstate, t.fault, t.peekBytes 0x1FF 4, t.out)) =
    some (.loaded, none, [0#8, 0x12#8, 0x00#8, 0#8], [.loadResult .ok]) := by decide

/-- E3: a ROM of 3585 bytes, after a fault (R301, R302). -/
theorem test_load_too_large (bytes : List Byte) (h : bytes.length = 3585) :
    ran (hostTurn (.loadProgram bytes) { stoppedByFault with mem := [(0x200, 1#8)], dt := 5#8 })
      (fun t => (t.mstate, t.fault, t.mem, t.dt, t.out)) =
      some (.unloaded, none, [], 0#8, [.loadResult .programTooLarge]) := by
  unfold ran
  rw [step_of_action (a := .loadProgram bytes) (rest := []) rfl, hostAct,
    hostLoad_of_too_large (show MState.stopped ≠ .running by decide) (by omega)]
  rfl

/-- V-M8: a tick under `tick60`. -/
theorem test_tick :
    ran (hostTurn .tick { start 0 with cfg := { defaultConfig with timerMode := .tick60 }, dt := 3#8 })
      (fun t => (t.dt, t.st)) = some (2#8, 0#8) := by decide

/-- A parameter choice with one key mapped. -/
def oneKey : Config := { defaultConfig with hostKeymap := [(0x41, 15)] }

/-- V-M9: an unmapped code; and a mapped one (R273). -/
theorem test_keys :
    ran (hostTurn (.keyDown 0x42) { State.reset with cfg := oneKey }) id = some { State.reset with cfg := oneKey } ∧
    ran (hostTurn (.keyDown 0x41) { State.reset with cfg := oneKey }) (·.keyBuf) = some (down [15]) ∧
    ran (hostTurn (.keyUp 0x41) { State.reset with cfg := oneKey, keyBuf := down [3, 15] }) (·.keyBuf) =
      some (down [3]) := by decide

/-- V-M10, its first cycle: the stored byte is part of the word fetched next. -/
theorem test_store_into_code :
    ran (((start 0xF055 [(0, 0x12#8)]).setI 0x203#16).pokeBytes 0x202 [0x60#8, 0x00#8]) (·.fetch) =
      some (.ok 0x6012#16) := by decide

/-! ### Witnesses: states and operands that meet the hypotheses of each statement, clause by clause, at the
boundary values of each clause -/

theorem witness_DecodeUndoesEncode : (Instr.sys 0x0DF#12).wf = true ∧ (Instr.drw 15 15 15).wf = true := by decide

theorem witness_EncodeUndoesDecode : decode [0x0F#8, 0xFF#8, 0xAA#8] = .ok (.sys 0xFFF#12, [0xAA#8]) := by decide

/-- Words just inside and just outside each listed set. -/
theorem witness_UnknownWordsAreThoseListed :
    [0x5001#16, 0x8008#16, 0x800F#16, 0x9FF1#16, 0xE09D#16, 0xF064#16, 0xFF66#16].all
      (fun w => decodeWord w == .error (.unknown w)) = true ∧
    [0x5FF0#16, 0x8007#16, 0x800E#16, 0x9FF0#16, 0xE09E#16, 0xF065#16, 0xFF55#16, 0xDFFF#16].all
      (fun w => (decodeWord w).isOk) = true := by decide

/-- A state whose host lets one cycle pass and then stops the CORE. -/
def scheduled (s : State) : State := s.setHost [.cycle, .act .stop]

/-- The last `pc` at which a fetch succeeds. -/
def lastWord (w : Nat) : State := State.withFetchWord { State.reset with pc := 0xFFE#16 } 16 w

theorem witness_StepRunsDecodedInstruction :
    (lastWord 0x6A05).canCycle = true ∧ (lastWord 0x6A05).pc.toNat < 0xFFF ∧ (lastWord 0x6A05).host = [] ∧
    decode [(lastWord 0x6A05).peek 0xFFE, (lastWord 0x6A05).peek 0xFFF] = .ok (.ldImm 10 0x05#8, []) ∧
    ((lastWord 0x6A05).setHost [.cycle]).canCycle = true ∧
    ((lastWord 0x6A05).setHost [.cycle]).host = .cycle :: [] := by decide

theorem witness_CycleEndsWithFrameThenDecay : (start 0).fault = none := by decide

theorem witness_FetchIsBigEndianAndFaultsPastTop :
    (lastWord 0x1FFE).pc.toNat < 0xFFF ∧
    ({ start 0 with pc := 0xFFF#16 } : State).pc.toNat ≥ 0xFFF ∧
    ({ start 0 with pc := 0xFFF#16 } : State).canCycle = true ∧
    ({ start 0 with pc := 0xFFF#16 } : State).CyclesNext [] ∧
    (scheduled { start 0 with pc := 0xFFF#16 }).canCycle = true ∧
    (scheduled { start 0 with pc := 0xFFF#16 }).CyclesNext [.act .stop] := by decide

/-- The start state with UNKNOWN_OPCODE_POLICY `halt`. -/
def halting (w : Nat) : State := { start w with cfg := { defaultConfig with unknownOpcode := .halt } }

theorem witness_UnknownWordFollowsPolicy :
    decodeWord 0x5121#16 = .error (.unknown 0x5121#16) ∧
    ((start 0x5121).CyclesNext [] ∧ (scheduled (halting 0x5121)).CyclesNext [.act .stop]) ∧
    [start 0x5121, scheduled (start 0x5121)].all (fun s =>
      s.canCycle && decide (s.fetch = .ok 0x5121#16) && decide (s.cfg.unknownOpcode = .skip)) = true ∧
    [halting 0x5121, scheduled (halting 0x5121)].all (fun s =>
      s.canCycle && decide (s.fetch = .ok 0x5121#16) && decide (s.cfg.unknownOpcode = .halt)) = true := by decide

theorem witness_DisabledStepKeepsState :
    (State.reset.canCycle = false ∧ State.reset.CyclesNext [] ∧ State.reset.host = []) ∧
    ((scheduled stoppedByFault).canCycle = false ∧
      (scheduled stoppedByFault).CyclesNext [.act .stop]) := by decide

/-- A fault of an instruction, and one of the fetch in a scheduled cycle; and a state that a fault stopped. -/
theorem witness_FaultingCycleHasNoOtherEffect :
    ((start 0x00EE).canCycle = true ∧ (start 0x00EE).CyclesNext [] ∧ (start 0x00EE).fetch = .ok 0x00EE#16 ∧
      ran (start 0x00EE) (fun t => decide (t.fault ≠ none)) = some true) ∧
    ((scheduled { start 0 with pc := 0xFFF#16 }).canCycle = true ∧
      (scheduled { start 0 with pc := 0xFFF#16 }).CyclesNext [.act .stop] ∧
      (scheduled { start 0 with pc := 0xFFF#16 }).fetch = .error 0x1000 ∧
      ran (scheduled { start 0 with pc := 0xFFF#16 }) (fun t => decide (t.fault ≠ none)) = some true) ∧
    (stoppedByFault.CyclesNext [] ∧ stoppedByFault.fault ≠ none ∧ ran stoppedByFault id = some stoppedByFault) ∧
    ran (hostTurn (.loadProgram []) stoppedByFault) (·.fault) = some none := by decide

theorem witness_ClsClearsEveryCell :
    ((start 0x00E0).canCycle = true ∧ (start 0x00E0).CyclesNext [] ∧ (start 0x00E0).fetch = .ok 0x00E0#16) ∧
    (scheduled (start 0x00E0)).CyclesNext [.act .stop] := by decide

/-- No rows with I past memory, and a sprite whose last row is the last byte of memory. -/
theorem witness_DrwXorsSpriteAndReportsCollision :
    ((0 : Fin 16) = 0 ∨ (startAt 0xD010 0xFFFF#16 []).i.toNat + (0 : Fin 16).val ≤ 4096) ∧
    ((1 : Fin 16) = 0 ∨ (startAt 0xD011 0xFFF#16 [0x80#8]).i.toNat + (1 : Fin 16).val ≤ 4096) := by decide

theorem witness_DrwXorsSpriteAndReportsCollision_lit :
    SpriteLights ((startAt 0xD011 0xFFF#16 [0x80#8]).setFb (flipAt clearFb 0)) 0 1 1 0 ∧
    pixelAt (flipAt clearFb 0) 0 = true :=
  ⟨⟨0, 0, by decide⟩, by decide⟩

theorem witness_DrwXorsSpriteAndReportsCollision_unlit :
    (¬ SpriteLights (startAt 0xD010 0xFFFF#16 []) 0 1 0 0) ∧
    ¬ ∃ k, SpriteLights (startAt 0xD010 0xFFFF#16 []) 0 1 0 k ∧ pixelAt clearFb k = true :=
  ⟨fun ⟨r, _, h, _⟩ => absurd h (by simp), fun ⟨_, ⟨r, _, h, _⟩, _⟩ => absurd h (by simp)⟩

theorem witness_SpritePixelsLandInDistinctCells :
    (14 ≤ 14 ∧ 14 ≤ 14 ∧ 7 ≤ 7 ∧ 7 ≤ 7) ∧ cellAt (255 + 7) (255 + 14) = cellAt (255 + 7) (255 + 14) := by decide

/-- One entry, sixteen entries, and none; and a popped address past the last word. -/
theorem witness_RetPopsOrUnderflows :
    ({ start 0x00EE with sp := 1 } : State).sp = (0 : Fin 16).succ ∧
    ({ start 0x00EE with sp := 16 } : State).sp = (15 : Fin 16).succ ∧
    ({ start 0x00EE with stack := State.reset.stack.set 15 0xFFF#16 } : State).stack[15].toNat > 0xFFE ∧
    (start 0x00EE).sp = 0 := by decide

theorem witness_CallPushesOrOverflows :
    (start 0x2400).sp = (0 : Fin 16).castSucc ∧
    ({ start 0x2400 with sp := 15 } : State).sp = (15 : Fin 16).castSucc ∧
    ({ start 0x2400 with sp := 16 } : State).sp = 16 := by decide

theorem witness_JpJumpsAnywhere :
    (lastWord 0x1FFE).canCycle = true ∧ (lastWord 0x1FFE).CyclesNext [] ∧
    (scheduled (lastWord 0x1FFE)).CyclesNext [.act .stop] ∧
    (lastWord 0x1FFE).fetch = .ok (0x1#4 ++ 0xFFE#12) ∧ (lastWord 0x1FFE).pc.toNat = (0xFFE#12).toNat := by decide

theorem witness_SysRunsAsUnknownOpcode :
    (start 0x0123).cfg.unknownOpcode = .skip ∧ (halting 0x0123).cfg.unknownOpcode = .halt := by decide

theorem witness_LdFPointsAtTheGlyph :
    ((start 0xF529 [(5, 15#8)]).getV 5).toNat ≤ 15 ∧
    15 < ((start 0xF529 [(5, 16#8)]).getV 5).toNat ∧ (start 0xF529 [(5, 16#8)]).cfg.fontIndex = .fault ∧
    15 < (({ start 0xF529 [(5, 16#8)] with cfg := { defaultConfig with fontIndex := .lowNibble } } :
      State).getV 5).toNat := by decide

/-- A start state under FONT_WRITE_POLICY `write`. -/
def fontWritable (s : State) : State := { s with cfg := { defaultConfig with fontWrite := .write } }

/-- The first and the last place of the three digits, and the font region where it may be written. -/
theorem witness_LdBStoresDecimalDigits :
    [startAt 0xF033 0x050#16 [], startAt 0xF033 0xFFD#16 [], fontWritable (startAt 0xF033 0#16 [])].all (fun s =>
      s.mem.wf s.cfg.font && decide (s.i.toNat + 2 ≤ 0xFFF) &&
      decide (0x04F < s.i.toNat ∨ s.cfg.fontWrite = .write)) = true := by decide

theorem witness_StoreRegsStoresV0ToVx :
    [startAt 0xFF55 0x050#16 [], startAt 0xFF55 0xFF0#16 [], fontWritable (startAt 0xFF55 0#16 [])].all (fun s =>
      s.mem.wf s.cfg.font && decide (s.i.toNat + (15 : Reg).val ≤ 0xFFF) &&
      decide (0x04F < s.i.toNat ∨ s.cfg.fontWrite = .write)) = true := by decide

theorem witness_LoadRegsLoadsV0ToVx :
    (startAt 0xFF65 0#16 []).i.toNat + (15 : Reg).val ≤ 0xFFF ∧
    (startAt 0xFF65 0xFF0#16 []).i.toNat + (15 : Reg).val ≤ 0xFFF := by decide

theorem witness_ReadsPastTheTopFault :
    (startAt 0xF165 0xFFF#16 []).i.toNat + (1 : Reg).val > 0xFFF ∧
    (startAt 0xF065 0x1000#16 []).i.toNat + (0 : Reg).val > 0xFFF ∧
    ((1 : Fin 16) ≠ 0 ∧ (startAt 0xD011 0x1000#16 []).i.toNat + (1 : Fin 16).val > 0x1000) ∧
    ((15 : Fin 16) ≠ 0 ∧ (startAt 0xD01F 0xFF2#16 []).i.toNat + (15 : Fin 16).val > 0x1000) := by decide

theorem witness_StoresOutsideWritableMemoryFault :
    (startAt 0xF033 0xFFE#16 []).i.toNat + 2 > 0xFFF ∧
    (startAt 0xF155 0xFFF#16 []).i.toNat + (1 : Reg).val > 0xFFF ∧
    ((startAt 0xF033 0x04F#16 []).i.toNat ≤ 0x04F ∧ (startAt 0xF033 0x04F#16 []).cfg.fontWrite = .fault) ∧
    ((startAt 0xF155 0#16 []).i.toNat ≤ 0x04F ∧ (startAt 0xF155 0#16 []).cfg.fontWrite = .fault) := by decide

theorem witness_StoredWordIsFetchedNext :
    (startAt 0xF155 0x202#16 []).mem.wf conventionalFont = true ∧ 1 ≤ (1 : Reg).val ∧
    (startAt 0xF155 0x202#16 []).i = (startAt 0xF155 0x202#16 []).pc + 2 ∧
    (startAt 0xF155 0x202#16 []).i.toNat + (1 : Reg).val ≤ 0xFFF ∧
    0x04F < (startAt 0xF155 0x202#16 []).i.toNat ∧
    (startAt 0xF155 0x202#16 []).cfg.font = conventionalFont := by decide

/-- A start state under KEY_INDEX_POLICY `low_nibble`. -/
def keyNibble (s : State) : State := { s with cfg := { defaultConfig with keyIndex := .lowNibble } }

theorem witness_KeySkipsReadTheLatch :
    ((15 : Key).val = ((start 0xE59E [(5, 15#8)]).getV 5).toNat % 16 ∧
      ((start 0xE59E [(5, 15#8)]).getV 5).toNat ≤ 15) ∧
    ((0 : Key).val = ((keyNibble (start 0xE59E [(5, 16#8)])).getV 5).toNat % 16 ∧
      (keyNibble (start 0xE59E [(5, 16#8)])).cfg.keyIndex = .lowNibble) := by decide

theorem witness_KeySkipsFaultPastSixteenKeys :
    15 < ((start 0xE59E [(5, 16#8)]).getV 5).toNat ∧ (start 0xE59E [(5, 16#8)]).cfg.keyIndex = .fault := by decide

theorem witness_KeyWaitTakesTheLeastKeyOrWaits :
    ((down [9, 3])[(3 : Key)] = true ∧ ∀ j : Key, j < 3 → (down [9, 3])[j] = false) ∧
    ((down [0])[(0 : Key)] = true ∧ ∀ j : Key, j < 0 → (down [0])[j] = false) ∧
    ∀ k : Key, (start 0xF50A).key[k] = false := by decide

/-- The largest ROM, from each state that admits a load. -/
theorem witness_LoadProgramResetsAndCopies :
    (hostTurn (.loadProgram (List.replicate 3584 0xFF#8)) State.reset).host =
      .act (.loadProgram (List.replicate 3584 0xFF#8)) :: [] ∧
    State.reset.mstate ≠ .running ∧ stoppedByFault.mstate ≠ .running ∧
    (List.replicate 3584 0xFF#8).length ≤ 3584 :=
  ⟨rfl, by decide, by decide, by rw [List.length_replicate]⟩

theorem witness_LoadProgramTooLargeUnloads :
    (stoppedByFault.setHost [.act (.loadProgram (List.replicate 3585 0xFF#8)), .act .run]).host =
      .act (.loadProgram (List.replicate 3585 0xFF#8)) :: [.act .run] ∧
    (hostTurn (.loadProgram (List.replicate 3585 0xFF#8)) State.reset).host =
      .act (.loadProgram (List.replicate 3585 0xFF#8)) :: [] ∧
    State.reset.mstate ≠ .running ∧ (stoppedByFault.mstate ≠ .running ∧ stoppedByFault.fault ≠ none) ∧
    3584 < (List.replicate 3585 0xFF#8).length :=
  ⟨rfl, rfl, by decide, by decide, by rw [List.length_replicate]; decide⟩

theorem witness_RunStopAndIsRunning :
    ((hostTurn .run { State.reset with mstate := .loaded }).host = .act .run :: [] ∧
      (hostTurn .run { State.reset with mstate := .loaded }).mstate = .loaded ∧
      (hostTurn .run { State.reset with mstate := .loaded }).fault = none) ∧
    ((hostTurn .stop (start 0)).host = .act .stop :: [] ∧ (hostTurn .stop (start 0)).mstate = .running) ∧
    (hostTurn .isRunning (start 0)).host = .act .isRunning :: [] := by decide

theorem witness_ActionsNotAdmittedChangeNothing :
    ((hostTurn .run State.reset).host = .act .run :: [] ∧ State.reset.mstate = .unloaded) ∧
    ((hostTurn .run stoppedByFault).host = .act .run :: [] ∧ stoppedByFault.fault ≠ none) ∧
    ((hostTurn .stop State.reset).host = .act .stop :: [] ∧ State.reset.mstate ≠ .running) ∧
    ((hostTurn (.loadProgram []) (start 0)).host = .act (.loadProgram []) :: [] ∧
      (start 0).mstate = .running) ∧
    ((hostTurn .tick (start 0)).host = .act .tick :: [] ∧ (start 0).cfg.timerMode = .perCycle) := by decide

theorem witness_KeyEventsWriteOneFlag :
    translateKey oneKey.hostKeymap 0x41 = some 15 ∧ translateKey oneKey.hostKeymap 0x42 = none ∧
    (hostTurn (.keyDown 0x41) { State.reset with cfg := oneKey }).host = .act (.keyDown 0x41) :: [] ∧
    (hostTurn (.keyUp 0x41) { State.reset with cfg := oneKey }).host = .act (.keyUp 0x41) :: [] := by decide

/-- A running start state under TIMER_MODE `tick60`. -/
def ticking : State := { start 0 with cfg := { defaultConfig with timerMode := .tick60 } }

theorem witness_TicksDecayTimersUnderTick60 :
    (hostTurn .tick ticking).cfg.timerMode = .tick60 ∧ (hostTurn .tick ticking).mstate = .running ∧
    (hostTurn .tick ticking).host = .act .tick :: [] ∧ (hostTurn .tick ticking).fault = none := by decide

theorem witness_BootFetchesTheFirstWord : (List.replicate 3582 0xFF#8).length ≤ 3582 := by
  rw [List.length_replicate]

theorem witness_CycleLatchesTheKeyBuffer :
    ({ start 0xF50A with keyBuf := down [7] } : State).canCycle = true ∧
    ({ start 0xF50A with keyBuf := down [7] } : State).CyclesNext [] ∧
    (scheduled { start 0xF50A with keyBuf := down [7] }).canCycle = true ∧
    (scheduled { start 0xF50A with keyBuf := down [7] }).CyclesNext [.act .stop] ∧
    ran (scheduled { start 0xF50A with keyBuf := down [7] }) (·.key) = some (down [7]) := by decide

theorem witness_InstructionsIgnoreTheLiveKeyBuffer : exec (.ldVxK 5) State.reset = .next State.reset := rfl

theorem witness_NoInstructionReadsTheSoundTimer :
    (∀ x, Instr.ldVxDt 4 ≠ .ldStVx x) ∧
    exec (.ldVxDt 4) State.reset = .next { State.reset with pc := 0x202#16 } :=
  ⟨nofun, rfl⟩

theorem witness_RegistersOutsideDestinationsAreKept :
    exec (.ldReg 1 2) State.reset = .next { State.reset with pc := 0x202#16 } ∧
    mayWriteV (.ldReg 1 2) 2 = false ∧ mayWriteV (.loadRegs 14) 15 = false := ⟨rfl, rfl, rfl⟩

/-- The two bytes beside the three that LD B stores. -/
theorem witness_BytesOutsideStoresAreKept :
    (∃ t, exec (.ldB 0) (startAt 0xF033 0x300#16 []) = .next t) ∧
    0x2FF < (startAt 0xF033 0x300#16 []).i.toNat ∧
    (startAt 0xF033 0x300#16 []).i.toNat + storedBytes (.ldB 0) ≤ 0x303 :=
  ⟨⟨_, rfl⟩, by decide, by decide⟩

/-- LD Vx, Vy meets the premise of every clause. -/
theorem witness_OtherStateIsKept :
    exec (.ldReg 1 2) State.reset = .next { State.reset with pc := 0x202#16 } ∧
    mayWriteI (.ldReg 1 2) = false ∧ (∀ nnn, Instr.ldReg 1 2 ≠ .call nnn) ∧ Instr.ldReg 1 2 ≠ .ret ∧
    (∀ x, Instr.ldReg 1 2 ≠ .ldDtVx x) ∧ (∀ x, Instr.ldReg 1 2 ≠ .ldStVx x) ∧
    (∀ x y n, Instr.ldReg 1 2 ≠ .drw x y n) ∧ Instr.ldReg 1 2 ≠ .cls ∧
    ∀ x nn, Instr.ldReg 1 2 ≠ .rnd x nn :=
  ⟨rfl, rfl, nofun, nofun, nofun, nofun, nofun, nofun, nofun⟩

theorem witness_InstructionFaultsArePrecise :
    exec .ret State.reset = .next (State.reset.afterFault ⟨.stackUnderflow, 0x200#16, some 0x00EE#16, none⟩) ∧
    exec (.jp 0x300#12) State.reset = .next { State.reset with pc := 0x300#16 } := ⟨rfl, rfl⟩

/-- A running state with memory written, `pc` at its bound and a full stack. -/
def busy : State :=
  { lastWord 0x6A05 with pc := 0x10FE#16, stack := Vector.replicate 16 0x1000#16, sp := 16 }

theorem witness_StepKeepsTheInvariant :
    busy.Inv ∧ stoppedByFault.Inv ∧ ∃ t, step busy = .next t :=
  ⟨⟨by decide, by decide, by decide, by decide⟩, ⟨by decide, by decide, by decide, by decide⟩, ⟨_, rfl⟩⟩

theorem witness_StepKeepsTheFontUnderFaultPolicy :
    busy.cfg.fontWrite = .fault ∧ busy.FontIntact ∧ ∃ t, step busy = .next t := by
  refine ⟨by decide, fun a => ?_, ⟨_, rfl⟩⟩
  have hm : busy.mem = [(0xFFE, 0x6A#8), (0xFFF, 0x05#8)] := by decide
  have h1 : a.val ≠ 0xFFE := by omega
  have h2 : a.val ≠ 0xFFF := by omega
  simp [State.peek, memRead, memFind, blankByte, hm, h1, h2]

end Sys2Proof.Tests
end

/-! SUPPORT. CLS and the cycle that executes it (40_display.md section 1). -/

namespace Sys2Proof.Machine

/-- A step that is an enabled cycle, whose word decodes and whose instruction answers a next state, ends the
cycle on that state (R36). -/
theorem step_of_decoded_word {s u : State} {rest : List Turn} {w : Word} {i : Instr}
    (hc : s.canCycle = true) (hn : s.CyclesNext rest) (hf : s.fetch = .ok w) (hd : decodeWord w = .ok i)
    (hx : exec i (s.setHost rest).beginCycle = .next u) :
    step s = .next (endCycle (s.setHost rest) u) := by
  rw [step_of_cyclesNext hn, cycle_of_fetch ((s.setHost_canCycle rest).trans hc) ((s.setHost_fetch rest).trans hf),
    execWord, hd]
  exact congrArg (finishCycle (s.setHost rest)) hx

theorem decodeWord_cls : decodeWord 0x00E0#16 = .ok .cls := by decide

theorem exec_cls (s : State) : exec .cls s = .next ((s.setFb clearFb).requestRefresh.advance 2) := rfl

/-- The outputs of a cycle that neither faulted nor failed to ask for a refresh: its frame comes last (R272). -/
theorem endCycle_out_of_refresh {before after : State} (hf : after.fault = none) (hr : after.refresh = true) :
    (endCycle before after).out = after.out ++ [.frame after.fb] := by
  rw [endCycle_of_no_fault hf, State.emitFrame_cycleDecay_eq]
  exact if_pos hr

/-- The end of a cycle keeps the framebuffer, faulted or not. -/
@[simp] theorem endCycle_fb (before after : State) : (endCycle before after).fb = after.fb := by
  cases hf : after.fault with
  | none => rw [endCycle_of_no_fault hf, State.emitFrame_cycleDecay_eq]
  | some r => rw [endCycle_of_fault (by rw [hf]; rfl)]

/-- Settles O12: CLS writes the clear framebuffer and the refresh flag whatever the cells held, so the end of
its cycle emits that framebuffer. -/
theorem clsClearsEveryCell : Obligations.ClsClearsEveryCell := by
  refine ⟨decodeWord_cls, fun s => ⟨⟨_, exec_cls s, rfl, pixelAt_clearFb⟩, fun rest hc hn hf => ?_⟩⟩
  have hfault : s.fault = none := (State.canCycle_iff.mp hc).2
  have hstep := step_of_decoded_word hc hn hf decodeWord_cls (exec_cls _)
  refine ⟨_, hstep, ?_, fun k => ?_⟩
  · rw [endCycle_fb]
    exact endCycle_out_of_refresh hfault rfl
  · rw [endCycle_fb]
    exact pixelAt_clearFb k

end Sys2Proof.Machine

/-! SUPPORT. RET and the pop it does (10_state.md rule R28; 41_control_flow.md rule R140). -/

namespace Sys2Proof.Machine

theorem decodeWord_ret : decodeWord 0x00EE#16 = .ok .ret := by decide

/-- A pop with `j + 1` entries answers entry `j` and leaves `j` of them. -/
theorem State.pop_of_sp_succ {s : State} {j : Fin 16} (h : s.sp = j.succ) :
    s.pop = some (s.stack[j], { s with sp := j.castSucc }) := by
  have hj : s.sp.val = j.val + 1 := congrArg Fin.val h
  unfold State.pop
  rw [dif_pos (by omega)]
  simp only [hj, Nat.add_sub_cancel]
  rfl

theorem exec_ret_of_pop {s popped : State} {target : Word} (h : s.pop = some (target, popped)) :
    exec .ret s = .next (popped.setPc target) := by
  change execRet s = _
  rw [execRet, h]

theorem exec_ret_of_pop_none {s : State} (h : s.pop = none) :
    exec .ret s = .next (s.raise .stackUnderflow (some 0x00EE#16) none) := by
  change execRet s = _
  rw [execRet, h]
  rfl

/-- A fetch past the last whole word fails at the address of the second byte (R64). -/
theorem State.fetch_of_pc_past_end {s : State} (h : 0xFFE < s.pc.toNat) : s.fetch = .error (s.pc.toNat + 1) := by
  obtain ⟨hle, -⟩ | ⟨-, hf⟩ := s.fetch_cases
  · omega
  · exact hf

/-- Settles O15: a pop on a stack of `j + 1` entries answers entry `j`, which RET writes to `pc` unchecked, so
the check past 0xFFE is the next fetch's; on an empty stack the pop answers nothing, and RET only raises. -/
theorem retPopsOrUnderflows : Obligations.RetPopsOrUnderflows := by
  refine ⟨decodeWord_ret, fun s => ⟨fun j hsp => ⟨?_, ?_⟩, fun hsp => ?_⟩⟩
  · exact exec_ret_of_pop (State.pop_of_sp_succ hsp)
  · exact fun hpast => State.fetch_of_pc_past_end hpast
  · exact exec_ret_of_pop_none (State.pop_eq_none.mpr hsp)

end Sys2Proof.Machine

/-! SUPPORT. The skips with an immediate (42_skips.md rules R160 and R161). -/

namespace Sys2Proof.Machine

theorem decodeWord_seImm (x : Reg) (nn : Byte) : decodeWord (wordXNN 0x3#4 x nn) = .ok (.seImm x nn) := by
  rw [decodeWord_op3 (fieldOp_wordXNN ..), fieldX_wordXNN, fieldNN_wordXNN]

theorem decodeWord_sneImm (x : Reg) (nn : Byte) : decodeWord (wordXNN 0x4#4 x nn) = .ok (.sneImm x nn) := by
  rw [decodeWord_op4 (fieldOp_wordXNN ..), fieldX_wordXNN, fieldNN_wordXNN]

theorem exec_seImm (x : Reg) (nn : Byte) (s : State) :
    exec (.seImm x nn) s = .next (s.setPc (if s.getV x = nn then s.pc + 4 else s.pc + 2)) := by
  change execSeImm x nn s = _
  simp only [execSeImm, State.skipIf_eq, beq_iff_eq]

theorem exec_sneImm (x : Reg) (nn : Byte) (s : State) :
    exec (.sneImm x nn) s = .next (s.setPc (if s.getV x ≠ nn then s.pc + 4 else s.pc + 2)) := by
  change execSneImm x nn s = _
  simp only [execSneImm, State.skipIf_eq, bne_iff_ne]

/-- Settles O20: the words `3xnn` and `4xnn` decode to the two skips, and each of them only sets `pc`, by the
comparison of its register with the immediate. -/
theorem immediateSkipsCompareAndAdvance : Obligations.ImmediateSkipsCompareAndAdvance := by
  intro x nn s
  exact ⟨decodeWord_seImm x nn, decodeWord_sneImm x nn, exec_seImm x nn s, exec_sneImm x nn s⟩

end Sys2Proof.Machine

/-! SUPPORT. The load of an immediate and the addition of one (43_alu.md rules R180 and R181). -/

namespace Sys2Proof.Machine

theorem decodeWord_ldImm (x : Reg) (nn : Byte) : decodeWord (wordXNN 0x6#4 x nn) = .ok (.ldImm x nn) := by
  rw [decodeWord_op6 (fieldOp_wordXNN ..), fieldX_wordXNN, fieldNN_wordXNN]

theorem decodeWord_addImm (x : Reg) (nn : Byte) : decodeWord (wordXNN 0x7#4 x nn) = .ok (.addImm x nn) := by
  rw [decodeWord_op7 (fieldOp_wordXNN ..), fieldX_wordXNN, fieldNN_wordXNN]

theorem exec_ldImm (x : Reg) (nn : Byte) (s : State) :
    exec (.ldImm x nn) s = .next ((s.setV x nn).advance 2) := rfl

theorem exec_addImm (x : Reg) (nn : Byte) (s : State) :
    exec (.addImm x nn) s = .next ((s.setV x (s.getV x + nn)).advance 2) := rfl

/-- A register write followed by an advance touches `v` and `pc` alone. -/
theorem State.setV_advance (s : State) (x : Reg) (b : Byte) (n : Word) :
    (s.setV x b).advance n = { s with v := s.v.set x b, pc := s.pc + n } := rfl

/-- Settles O22: the word `6xnn` decodes to LD Vx, nn, whose one register write and advance change `v` and `pc`
alone. -/
theorem ldImmLoadsTheImmediate : Obligations.LdImmLoadsTheImmediate := by
  intro x nn s
  exact ⟨decodeWord_ldImm x nn, by rw [exec_ldImm, State.setV_advance]⟩

/-- Settles O23: the next state is the one write of the 8-bit sum to Vx and the advance, so `VF` is kept unless
it is Vx. -/
theorem addImmWrapsWithoutFlag : Obligations.AddImmWrapsWithoutFlag := by
  intro x nn s
  refine ⟨decodeWord_addImm x nn, (s.setV x (s.getV x + nn)).advance 2, exec_addImm x nn s,
    State.setV_advance .., ?_, fun r hr => ?_⟩
  · rw [State.advance_getV, State.setV_getV_self, BitVec.toNat_add]
  · rw [State.advance_getV, State.setV_getV_ne s _ hr]

end Sys2Proof.Machine

/-! SUPPORT. The load of an address into `I` (44_index_memory.md rule R210). -/

namespace Sys2Proof.Machine

theorem decodeWord_ldI (nnn : Addr) : decodeWord (wordNNN 0xA#4 nnn) = .ok (.ldI nnn) := by
  rw [decodeWord_opA (fieldOp_wordNNN ..), fieldNNN_wordNNN]

theorem exec_ldI (nnn : Addr) (s : State) :
    exec (.ldI nnn) s = .next ((s.setI (zextAddr nnn)).advance 2) := rfl

/-- A write of `I` followed by an advance touches `i` and `pc` alone. -/
theorem State.setI_advance (s : State) (a n : Word) :
    (s.setI a).advance n = { s with i := a, pc := s.pc + n } := rfl

/-- A zero-extended address stays within the 4096 bytes of memory. -/
theorem zextAddr_toNat_le (nnn : Addr) : (zextAddr nnn).toNat ≤ 0xFFF := by
  rw [zextAddr_toNat]
  exact Nat.le_of_lt_succ nnn.isLt

/-- Settles O30: the word `Annn` decodes to LD I, nnn, whose one write of the zero-extended address to `I` and
advance change `i` and `pc` alone. -/
theorem ldILoadsTheAddress : Obligations.LdILoadsTheAddress := by
  intro nnn s
  refine ⟨decodeWord_ldI nnn, (s.setI (zextAddr nnn)).advance 2, exec_ldI nnn s, State.setI_advance .., ?_, ?_⟩
  · rw [State.advance_i, State.setI_i, zextAddr_toNat]
  · rw [State.advance_i, State.setI_i]
    exact zextAddr_toNat_le nnn

end Sys2Proof.Machine

/-! SUPPORT. The decoder against the encoder (30_encoding.md rules R94 to R97): by the major opcode, and below it by
the minor code. -/

namespace Sys2Proof

/-! ### Decoding what was encoded -/

theorem decode_wordBytes_append (w : Word) (rest : List Byte) :
    decode (wordBytes w ++ rest) = (decodeWord w).map (·, rest) := by
  simp only [wordBytes, List.cons_append, List.nil_append, decode, joinBytes_highByte_lowByte]
  cases decodeWord w <;> rfl

/-- A word with `op` 0 names the address field it was built from. -/
theorem wordNNN_op0_eq_iff {nnn addr : Addr} : wordNNN 0x0#4 nnn = wordNNN 0x0#4 addr ↔ nnn = addr :=
  ⟨fun h => by simpa using congrArg fieldNNN h, fun h => h ▸ rfl⟩

theorem decodeWord_sys {nnn : Addr} (hcls : nnn ≠ 0x0E0#12) (hret : nnn ≠ 0x0EE#12) :
    decodeWord (wordNNN 0x0#4 nnn) = .ok (.sys nnn) := by
  have hcls' : wordNNN 0x0#4 nnn ≠ 0x00E0#16 := mt (wordNNN_op0_eq_iff (addr := 0x0E0#12)).mp hcls
  have hret' : wordNNN 0x0#4 nnn ≠ 0x00EE#16 := mt (wordNNN_op0_eq_iff (addr := 0x0EE#12)).mp hret
  rw [decodeWord_op0 (fieldOp_wordNNN ..), decodeOp0, if_neg hcls', if_neg hret', fieldNNN_wordNNN]

/-- The word of a well-formed instruction decodes to it. -/
theorem decodeWord_encodeWord {i : Instr} (hwf : i.wf = true) : decodeWord (encodeWord i) = .ok i := by
  cases i
  case cls => exact Machine.decodeWord_cls
  case ret => exact Machine.decodeWord_ret
  case sys nnn =>
    obtain ⟨hcls, hret⟩ : nnn ≠ 0x0E0#12 ∧ nnn ≠ 0x0EE#12 := by simpa [Instr.wf] using hwf
    exact decodeWord_sys hcls hret
  case jp | call | ldI | jpV0 => simp [encodeWord, decodeWord]
  case seImm | sneImm | ldImm | addImm | rnd => simp [encodeWord, decodeWord]
  case seReg | sneReg => simp [encodeWord, decodeWord]
  case drw => simp [encodeWord, decodeWord, nibble]
  case ldReg | orReg | andReg | xorReg | addReg | subReg | shr | subnReg | shl =>
    simp [encodeWord, decodeWord, decodeOp8]
  case skp | sknp => simp [encodeWord, decodeWord, decodeOpE]
  case ldVxDt | ldVxK | ldDtVx | ldStVx | addI | ldF | ldB | storeRegs | loadRegs =>
    simp [encodeWord, decodeWord, decodeOpF]

/-- Settles O1: the two bytes join to the instruction's word, whose fields select its own arm of the decoder. -/
theorem decodeUndoesEncode : Obligations.DecodeUndoesEncode := by
  intro i rest hwf
  rw [encode, decode_wordBytes_append, decodeWord_encodeWord hwf]
  rfl

/-! ### Encoding what was decoded -/

theorem wordNNN_of_fieldOp {w : Word} {op : BitVec 4} (hop : fieldOp w = op) : wordNNN op (fieldNNN w) = w :=
  hop ▸ wordNNN_fields w

theorem wordXNN_of_fieldOp {w : Word} {op : BitVec 4} (hop : fieldOp w = op) :
    wordXNN op (fieldX w) (fieldNN w) = w :=
  hop ▸ wordXNN_fields w

theorem wordXNN_of_fieldOp_fieldNN {w : Word} {op : BitVec 4} {nn : Byte} (hop : fieldOp w = op)
    (hnn : fieldNN w = nn) : wordXNN op (fieldX w) nn = w :=
  hnn ▸ wordXNN_of_fieldOp hop

theorem wordXYN_of_fieldOp_fieldN {w : Word} {op n : BitVec 4} (hop : fieldOp w = op) (hn : fieldN w = n) :
    wordXYN op (fieldX w) (fieldY w) n = w :=
  hop ▸ hn ▸ wordXYN_fields w

theorem encodeWord_decodeOp0 {w : Word} (hop : fieldOp w = 0x0#4) :
    (decodeOp0 w).wf = true ∧ encodeWord (decodeOp0 w) = w := by
  have hw : wordNNN 0x0#4 (fieldNNN w) = w := wordNNN_of_fieldOp hop
  unfold decodeOp0
  split
  · next hcls => exact ⟨rfl, hcls.symm⟩
  · next hcls =>
    split
    · next hret => exact ⟨rfl, hret.symm⟩
    · next hret =>
      have hne0 : fieldNNN w ≠ 0x0E0#12 := fun h => hcls (by rw [← hw, h]; rfl)
      have hneE : fieldNNN w ≠ 0x0EE#12 := fun h => hret (by rw [← hw, h]; rfl)
      exact ⟨by simp [Instr.wf, hne0, hneE], hw⟩

theorem encodeWord_of_decodeOp8 {w : Word} {i : Instr} (hop : fieldOp w = 0x8#4) (h : decodeOp8 w = .ok i) :
    i.wf = true ∧ encodeWord i = w := by
  unfold decodeOp8 at h
  split at h <;> cases h
  all_goals exact ⟨rfl, wordXYN_of_fieldOp_fieldN hop ‹_›⟩

theorem encodeWord_of_decodeOpE {w : Word} {i : Instr} (hop : fieldOp w = 0xE#4) (h : decodeOpE w = .ok i) :
    i.wf = true ∧ encodeWord i = w := by
  unfold decodeOpE at h
  split at h <;> cases h
  all_goals exact ⟨rfl, wordXNN_of_fieldOp_fieldNN hop ‹_›⟩

theorem encodeWord_of_decodeOpF {w : Word} {i : Instr} (hop : fieldOp w = 0xF#4) (h : decodeOpF w = .ok i) :
    i.wf = true ∧ encodeWord i = w := by
  unfold decodeOpF at h
  split at h <;> cases h
  all_goals exact ⟨rfl, wordXNN_of_fieldOp_fieldNN hop ‹_›⟩

/-- Two of the major opcodes decode by the test `n = 0` alone (R94). -/
theorem ok_of_ite_fieldN {w : Word} {i j : Instr}
    (h : (if fieldN w = 0x0#4 then .ok j else .error (.unknown w) : Except DecodeError Instr) = .ok i) :
    fieldN w = 0x0#4 ∧ i = j := by
  split at h
  · next hn => exact ⟨hn, by cases h; rfl⟩
  · cases h

/-- A word that decodes is the word of the well-formed instruction it decodes to; the arms stand together by the
format of their pattern (R93). -/
theorem encodeWord_of_decodeWord {w : Word} {i : Instr} (h : decodeWord w = .ok i) :
    i.wf = true ∧ encodeWord i = w := by
  unfold decodeWord at h
  split at h
  case h_1 hop =>
    cases h
    exact encodeWord_decodeOp0 hop
  case h_2 hop | h_3 hop | h_11 hop | h_12 hop =>
    cases h
    exact ⟨rfl, wordNNN_of_fieldOp hop⟩
  case h_4 hop | h_5 hop | h_7 hop | h_8 hop | h_13 hop =>
    cases h
    exact ⟨rfl, wordXNN_of_fieldOp hop⟩
  case h_6 hop | h_10 hop =>
    obtain ⟨hn, rfl⟩ := ok_of_ite_fieldN h
    exact ⟨rfl, wordXYN_of_fieldOp_fieldN hop hn⟩
  case h_14 hop =>
    cases h
    exact ⟨rfl, wordXYN_of_fieldOp_fieldN hop rfl⟩
  case h_9 hop => exact encodeWord_of_decodeOp8 hop h
  case h_15 hop => exact encodeWord_of_decodeOpE hop h
  case h_16 =>
    have hop : fieldOp w = 0xF#4 := by simp only [imp_false] at *; bv_omega
    exact encodeWord_of_decodeOpF hop h

/-- Two bytes decode by the word they join to, and the bytes after them are handed back. -/
theorem decode_cons_cons_eq_ok {hi lo : Byte} {tail rest : List Byte} {i : Instr}
    (h : decode (hi :: lo :: tail) = .ok (i, rest)) : decodeWord (joinBytes hi lo) = .ok i ∧ tail = rest := by
  simp only [decode] at h
  cases hd : decodeWord (joinBytes hi lo) <;> rw [hd] at h <;> cases h
  exact ⟨rfl, rfl⟩

/-- Settles O2: only two bytes or more decode, and the word they join to is that of the instruction, so its bytes
are the two. -/
theorem encodeUndoesDecode : Obligations.EncodeUndoesDecode := by
  intro bs i rest h
  match bs with
  | [] | [_] => cases h
  | hi :: lo :: tail =>
    obtain ⟨hd, rfl⟩ := decode_cons_cons_eq_ok h
    obtain ⟨hwf, hw⟩ := encodeWord_of_decodeWord hd
    exact ⟨hwf, by rw [encode, hw, wordBytes, highByte_joinBytes, lowByte_joinBytes]; rfl⟩

/-! ### The words that name no instruction -/

/-- A decoding arm that answers UNKNOWN exactly for the words a condition lists. -/
def UnknownIff (listed : Prop) (w : Word) (r : Except DecodeError Instr) : Prop :=
  (listed → r = .error (.unknown w)) ∧ (¬ listed → ∃ i, r = .ok i)

theorem unknownIff_of_ok {listed : Prop} {w : Word} {i : Instr} (h : ¬ listed) : UnknownIff listed w (.ok i) :=
  ⟨fun hl => absurd hl h, fun _ => ⟨i, rfl⟩⟩

theorem unknownIff_of_error {listed : Prop} {w : Word} (h : listed) : UnknownIff listed w (.error (.unknown w)) :=
  ⟨fun _ => rfl, fun hl => absurd h hl⟩

theorem unknownIff_ite_fieldN {w : Word} {i : Instr} :
    UnknownIff (w.toNat % 16 ≠ 0) w (if fieldN w = 0x0#4 then .ok i else .error (.unknown w)) := by
  rw [← fieldN_toNat]
  split
  · next h => exact unknownIff_of_ok (by simp [h])
  · next h => exact unknownIff_of_error fun h0 => h (BitVec.eq_of_toNat_eq h0)

theorem unknownIff_decodeOp8 (w : Word) :
    UnknownIff (w.toNat % 16 ∈ [8, 9, 10, 11, 12, 13, 15]) w (decodeOp8 w) := by
  rw [← fieldN_toNat]
  unfold decodeOp8
  split
  case h_10 =>
    refine unknownIff_of_error ?_
    simp only [List.mem_cons, List.not_mem_nil, or_false, imp_false] at *
    bv_omega
  all_goals
    next h => exact unknownIff_of_ok (by rw [h]; decide)

theorem unknownIff_decodeOpE (w : Word) : UnknownIff (w.toNat % 256 ∉ [0x9E, 0xA1]) w (decodeOpE w) := by
  rw [← fieldNN_toNat]
  unfold decodeOpE
  split
  case h_3 =>
    refine unknownIff_of_error ?_
    simp only [List.mem_cons, List.not_mem_nil, or_false, not_or, imp_false] at *
    bv_omega
  all_goals
    next h => exact unknownIff_of_ok (by rw [h]; decide)

theorem unknownIff_decodeOpF (w : Word) :
    UnknownIff (w.toNat % 256 ∉ [0x07, 0x0A, 0x15, 0x18, 0x1E, 0x29, 0x33, 0x55, 0x65]) w (decodeOpF w) := by
  rw [← fieldNN_toNat]
  unfold decodeOpF
  split
  case h_10 =>
    refine unknownIff_of_error ?_
    simp only [List.mem_cons, List.not_mem_nil, or_false, not_or, imp_false] at *
    bv_omega
  all_goals
    next h => exact unknownIff_of_ok (by rw [h]; decide)

/-- Outside five major opcodes every word decodes. -/
theorem decodeWord_ok_of_fieldOp {w : Word} (h : fieldOp w ∉ [0x5#4, 0x8#4, 0x9#4, 0xE#4, 0xF#4]) :
    ∃ i, decodeWord w = .ok i := by
  unfold decodeWord
  split
  case h_6 hop | h_9 hop | h_10 hop | h_15 hop => simp [hop] at h
  case h_16 =>
    have hop : fieldOp w = 0xF#4 := by simp only [imp_false] at *; bv_omega
    simp [hop] at h
  all_goals exact ⟨_, rfl⟩

/-- Settles O3: each of the five major opcodes that can refuse a word refuses those listed for it, and no other
major opcode lists or refuses any. -/
theorem unknownWordsAreThoseListed : Obligations.UnknownWordsAreThoseListed := by
  intro w op n nn listed
  have hop_eq : op = (fieldOp w).toNat := (fieldOp_toNat w).symm
  show UnknownIff listed w (decodeWord w)
  by_cases h : fieldOp w ∈ [0x5#4, 0x8#4, 0x9#4, 0xE#4, 0xF#4]
  · simp only [List.mem_cons, List.not_mem_nil, or_false] at h
    obtain hop | hop | hop | hop | hop := h <;> rw [hop] at hop_eq
    · rw [decodeWord_op5 hop]
      simpa [listed, hop_eq] using unknownIff_ite_fieldN
    · rw [decodeWord_op8 hop]
      simpa [listed, hop_eq] using unknownIff_decodeOp8 w
    · rw [decodeWord_op9 hop]
      simpa [listed, hop_eq] using unknownIff_ite_fieldN
    · rw [decodeWord_opE hop]
      simpa [listed, hop_eq] using unknownIff_decodeOpE w
    · rw [decodeWord_opF hop]
      simpa [listed, hop_eq] using unknownIff_decodeOpF w
  · obtain ⟨i, hi⟩ := decodeWord_ok_of_fieldOp h
    rw [hi]
    refine unknownIff_of_ok ?_
    simp only [List.mem_cons, List.not_mem_nil, or_false, not_or] at h
    simp only [listed, hop_eq]
    bv_omega

end Sys2Proof

/-! SUPPORT. What one instruction can do, said once: it takes one fault and has no other effect, or it completes and
keeps its frame (10_state.md sections 2 to 10; 60_exceptions.md rule R261). -/

namespace Sys2Proof.Machine

/-! ### The instructions that look something up, by what they find -/

theorem exec_call_of_push {nnn : Addr} {s pushed : State} (h : s.push (s.pc + 2) = some pushed) :
    exec (.call nnn) s = .next (pushed.setPc (zextAddr nnn)) := by
  change execCall nnn s = _
  rw [execCall, h]

theorem exec_call_of_push_none {nnn : Addr} {s : State} (h : s.push (s.pc + 2) = none) :
    exec (.call nnn) s = .next (s.raise .stackOverflow (some (encodeWord (.call nnn))) none) := by
  change execCall nnn s = _
  rw [execCall, h]

theorem exec_ldF_of_glyph {x : Reg} {s : State} {d : Fin 16} (h : glyphIndex s.cfg (s.getV x) = some d) :
    exec (.ldF x) s = .next ((s.setI (glyphAddress d)).advance 2) := by
  change execLdF x s = _
  rw [execLdF, h]

theorem exec_ldF_of_no_glyph {x : Reg} {s : State} (h : glyphIndex s.cfg (s.getV x) = none) :
    exec (.ldF x) s = .next (s.raise .fontIndexOutOfRange (some (encodeWord (.ldF x))) none) := by
  change execLdF x s = _
  rw [execLdF, h]

theorem keySkip_of_key {wanted : Bool} {x : Reg} {w : Word} {s : State} {k : Key}
    (h : keyIndex s.cfg (s.getV x) = some k) :
    keySkip wanted x w s = .next (s.setPc (if s.key[k] = wanted then s.pc + 4 else s.pc + 2)) := by
  simp only [keySkip, h, State.skipIf_eq, beq_iff_eq]

theorem keySkip_of_no_key {wanted : Bool} {x : Reg} {w : Word} {s : State}
    (h : keyIndex s.cfg (s.getV x) = none) :
    keySkip wanted x w s = .next (s.raise .keyIndexOutOfRange (some w) none) := by
  rw [keySkip, h]

theorem exec_ldVxK_of_key {x : Reg} {s : State} {k : Key} (h : leastKeyDown s.key = some k) :
    exec (.ldVxK x) s = .next ((s.setV x (BitVec.ofNat 8 k.val)).advance 2) := by
  change execLdVxK x s = _
  rw [execLdVxK, h]

theorem exec_ldVxK_of_no_key {x : Reg} {s : State} (h : leastKeyDown s.key = none) :
    exec (.ldVxK x) s = .next s := by
  change execLdVxK x s = _
  rw [execLdVxK, h]

/-! ### Every instruction and every step answers a next state -/

theorem State.ifChecked_next (s : State) (w : Word) (failure : Option (FaultKind × Nat)) (effect : State) :
    ∃ t, s.ifChecked w failure effect = .next t := by
  cases failure <;> exact ⟨_, rfl⟩

theorem unknownWord_next (w : Word) (s : State) : ∃ t, unknownWord w s = .next t := by
  unfold unknownWord
  cases s.cfg.unknownOpcode <;> exact ⟨_, rfl⟩

theorem keySkip_next (wanted : Bool) (x : Reg) (w : Word) (s : State) : ∃ t, keySkip wanted x w s = .next t := by
  cases h : keyIndex s.cfg (s.getV x) with
  | none => exact ⟨_, keySkip_of_no_key h⟩
  | some k => exact ⟨_, keySkip_of_key h⟩

theorem exec_next (i : Instr) (s : State) : ∃ t, exec i s = .next t := by
  cases i
  case ret =>
    cases h : s.pop with
    | none => exact ⟨_, exec_ret_of_pop_none h⟩
    | some p => exact ⟨_, exec_ret_of_pop h⟩
  case call nnn =>
    cases h : s.push (s.pc + 2) with
    | none => exact ⟨_, exec_call_of_push_none h⟩
    | some pushed => exact ⟨_, exec_call_of_push h⟩
  case ldF x =>
    cases h : glyphIndex s.cfg (s.getV x) with
    | none => exact ⟨_, exec_ldF_of_no_glyph h⟩
    | some d => exact ⟨_, exec_ldF_of_glyph h⟩
  case ldVxK x =>
    cases h : leastKeyDown s.key with
    | none => exact ⟨_, exec_ldVxK_of_no_key h⟩
    | some k => exact ⟨_, exec_ldVxK_of_key h⟩
  case sys => exact unknownWord_next ..
  case skp | sknp => exact keySkip_next ..
  case drw | ldB | storeRegs | loadRegs => exact State.ifChecked_next ..
  all_goals exact ⟨_, rfl⟩

theorem execWord_next (w : Word) (s : State) : ∃ t, execWord w s = .next t := by
  unfold execWord
  cases decodeWord w with
  | ok i => exact exec_next i s
  | error e => exact unknownWord_next w s

theorem cycle_next (s : State) : ∃ t, cycle s = .next t := by
  cases hc : s.canCycle with
  | false => exact ⟨_, cycle_of_disabled hc⟩
  | true =>
    cases hf : s.fetch with
    | error a => exact ⟨_, cycle_of_fetch_fault hc hf⟩
    | ok w =>
      obtain ⟨u, hu⟩ := execWord_next w s.beginCycle
      exact ⟨_, by rw [cycle_of_fetch hc hf, hu]; rfl⟩

theorem step_next (s : State) : ∃ t, step s = .next t := by
  match h : s.host with
  | .act a :: rest => exact ⟨_, step_of_action h⟩
  | .cycle :: rest => exact step_of_cycle_turn h ▸ cycle_next _
  | [] => exact step_of_no_turn h ▸ cycle_next s

/-- Settles O11: each arm of an instruction's meaning answers a next state, a fault's too, and so does each way a
step can go. -/
theorem everyStepAnswersNext : Obligations.EveryStepAnswersNext := ⟨exec_next, step_next⟩

/-! ### A fault and nothing else -/

/-- An instruction with word `w` took a fault from `s`; only the two kinds of a memory access name an address
(R262). -/
def TakesFault (w : Word) (s t : State) : Prop :=
  ∃ kind address, t = s.raise kind (some w) address ∧
    (address ≠ none ↔ kind = .addressOutOfRange ∨ kind = .fontRegionWrite)

theorem State.raise_eq_afterFault (s : State) (kind : FaultKind) (word : Option Word) (address : Option Nat) :
    s.raise kind word address = s.afterFault ⟨kind, s.pc, word, address⟩ := rfl

theorem takesFault_of_no_address {w : Word} {s : State} {kind : FaultKind}
    (h : ¬ (kind = .addressOutOfRange ∨ kind = .fontRegionWrite)) :
    TakesFault w s (s.raise kind (some w) none) :=
  ⟨kind, none, rfl, by simpa using h⟩

theorem checkRead_kind {a : Nat} {kind : FaultKind} (h : checkRead a = some kind) :
    kind = .addressOutOfRange ∨ kind = .fontRegionWrite := by
  unfold checkRead at h
  split at h <;> cases h
  exact .inl rfl

theorem checkWrite_kind {cfg : Config} {a : Nat} {kind : FaultKind} (h : checkWrite cfg a = some kind) :
    kind = .addressOutOfRange ∨ kind = .fontRegionWrite := by
  unfold checkWrite at h
  split at h
  · cases h
    exact .inl rfl
  · split at h <;> cases h
    exact .inr rfl

/-- A checked instruction takes the fault of an address, or each of its addresses passed the check. -/
theorem takesFault_or_of_ifChecked {check : Nat → Option FaultKind} {s t effect : State} {w : Word} {a n : Nat}
    (hkind : ∀ {b kind}, check b = some kind → kind = .addressOutOfRange ∨ kind = .fontRegionWrite)
    (h : s.ifChecked w (firstFailure check a n) effect = .next t) :
    TakesFault w s t ∨ (∀ k, k < n → check (a + k) = none) ∧ t = effect := by
  obtain ⟨kind, b, hf, rfl⟩ | ⟨hf, rfl⟩ := State.ifChecked_cases h
  · exact .inl ⟨kind, some b, rfl, by simpa using hkind (firstFailure_eq_some hf).1⟩
  · exact .inr ⟨firstFailure_eq_none.mp hf, rfl⟩

/-- The greatest target of JP V0. -/
theorem offsetTarget_toNat_le (nnn : Addr) (v0 : Byte) : (offsetTarget nnn v0).toNat ≤ 0x10FE := by
  have := nnn.isLt
  have := v0.isLt
  rw [offsetTarget_toNat]
  omega

/-! ### The frame of an instruction that completes -/

/-- Where `pc` can be after an instruction: kept, advanced, at a jump's target, or at an entry of the stack. -/
inductive NextPc (s : State) : Word → Prop where
  | kept : NextPc s s.pc
  | advanced (n : Word) (hn : n.toNat ≤ 4) : NextPc s (s.pc + n)
  | jumped (a : Word) (ha : a.toNat ≤ 0x10FE) : NextPc s a
  | popped (j : Fin 16) : NextPc s s.stack[j]

theorem NextPc.next {s : State} : NextPc s (s.pc + 2) := .advanced 2 (by decide)

theorem NextPc.skip {s : State} {c : Prop} [Decidable c] : NextPc s (if c then s.pc + 4 else s.pc + 2) := by
  split
  · exact .advanced 4 (by decide)
  · exact .next

/-- What memory can be after an instruction: as it was, or with the bytes it stores, all at addresses that may be
written (20_memory.md rules R61, R63). -/
def NextMem (i : Instr) (s : State) (m : Memory) : Prop :=
  m = s.mem ∨ ∃ bs, bs.length = storedBytes i ∧ m = memWriteBytes s.cfg.font s.mem s.i.toNat bs ∧
    s.i.toNat + bs.length ≤ 4096 ∧ (0x04F < s.i.toNat ∨ s.cfg.fontWrite = .write)

/-- `t` is a state in which instruction `i` may leave `s` where it takes no fault.  A field not given is one that `t`
keeps as it stands in `s`. -/
structure Completes (i : Instr) (s t : State) : Prop where
  registers : ∀ r, mayWriteV i r = false → t.getV r = s.getV r := by intros; rfl
  address : mayWriteI i = false → t.i = s.i := by intros; rfl
  pc : NextPc s t.pc := by exact .next
  stack : t.stack = s.stack ∨ (∃ nnn, i = .call nnn) ∧ ∃ j : Fin 16, t.stack = s.stack.set j (s.pc + 2) := by
    exact .inl rfl
  depth : (∀ nnn, i ≠ .call nnn) → i ≠ .ret → t.sp = s.sp := by intros; rfl
  delay : (∀ x, i ≠ .ldDtVx x) → t.dt = s.dt := by intros; rfl
  sound : (∀ x, i ≠ .ldStVx x) → t.st = s.st := by intros; rfl
  display : (∀ x y n, i ≠ .drw x y n) → i ≠ .cls → t.fb = s.fb ∧ t.refresh = s.refresh := by
    intros; exact ⟨rfl, rfl⟩
  draws : (∀ x nn, i ≠ .rnd x nn) → t.draws = s.draws := by intros; rfl
  memory : NextMem i s t.mem := by exact .inl rfl
  inputs : t.keyBuf = s.keyBuf ∧ t.key = s.key ∧ t.cfg = s.cfg ∧ t.host = s.host := by
    exact ⟨rfl, rfl, rfl, rfl⟩
  control : t.mstate = s.mstate ∧ t.fault = s.fault := by exact ⟨rfl, rfl⟩
  output : t.out = s.out ∨ ∃ w, t.out = s.out ++ [.unknownOpcode s.pc w] := by exact .inl rfl

theorem completes_self (i : Instr) (s : State) : Completes i s s := { pc := .kept }

theorem completes_setPc {i : Instr} {s : State} {a : Word} (h : NextPc s a) : Completes i s (s.setPc a) :=
  { pc := h }

theorem completes_setV {i : Instr} {s : State} {x : Reg} {b : Byte} (h : mayWriteV i x = true) :
    Completes i s ((s.setV x b).advance 2) :=
  { registers := fun r hr => s.setV_getV_ne b fun hrx => by simp [hrx, h] at hr }

theorem completes_writeFlagged {i : Instr} {s : State} {x : Reg} {res : Byte} {flag : Bool}
    (hx : mayWriteV i x = true) (hF : mayWriteV i regF = true) :
    Completes i s ((s.writeFlagged x res flag).advance 2) := by
  have hregs : ∀ r, mayWriteV i r = false → (s.writeFlagged x res flag).getV r = s.getV r := by
    intro r hr
    have hrx : r ≠ x := fun h => by simp [h, hx] at hr
    have hrF : r ≠ regF := fun h => by simp [h, hF] at hr
    rw [State.writeFlagged_getV, if_neg (fun h => hrx h.1), if_neg hrF]
  rw [State.writeFlagged_eq]
  exact { registers := hregs }

theorem completes_setI {i : Instr} {s : State} {a : Word} (h : mayWriteI i = true) :
    Completes i s ((s.setI a).advance 2) :=
  { address := fun hi => by simp [h] at hi }

theorem nextMem_pokeBytes {i : Instr} {s : State} {bs : List Byte} (hlen : bs.length = storedBytes i)
    (hpos : 0 < bs.length)
    (h : ∀ k, k < bs.length → checkWrite s.cfg (s.i.toNat + k) = none) :
    NextMem i s (s.pokeBytes s.i.toNat bs).mem := by
  have hfirst := checkWrite_eq_none.mp (h 0 hpos)
  have hlast := checkWrite_eq_none.mp (h (bs.length - 1) (by omega))
  exact .inr ⟨bs, hlen, rfl, by omega, by simpa using hfirst.2⟩

/-! ### Fault or frame, for every instruction -/

theorem execRet_cases {s t : State} (h : exec .ret s = .next t) :
    TakesFault (encodeWord .ret) s t ∨ Completes .ret s t := by
  cases hp : s.pop with
  | none =>
    rw [exec_ret_of_pop_none hp] at h
    cases h
    exact .inl (takesFault_of_no_address (by decide))
  | some p =>
    rw [exec_ret_of_pop hp] at h
    cases h
    obtain ⟨hs, htarget, hpopped⟩ := State.pop_eq_some hp
    rw [htarget, hpopped]
    exact .inr { pc := .popped ⟨s.sp.val - 1, by omega⟩, depth := fun _ hne => absurd rfl hne }

theorem execCall_cases {nnn : Addr} {s t : State} (h : exec (.call nnn) s = .next t) :
    TakesFault (encodeWord (.call nnn)) s t ∨ Completes (.call nnn) s t := by
  cases hp : s.push (s.pc + 2) with
  | none =>
    rw [exec_call_of_push_none hp] at h
    cases h
    exact .inl (takesFault_of_no_address (by decide))
  | some pushed =>
    rw [exec_call_of_push hp] at h
    cases h
    obtain ⟨hs, rfl⟩ := State.push_eq_some hp
    exact .inr
      { pc := .jumped _ (Nat.le_trans (zextAddr_toNat_le nnn) (by decide))
        stack := .inr ⟨⟨nnn, rfl⟩, ⟨s.sp.val, hs⟩, rfl⟩
        depth := fun hne => absurd rfl (hne nnn) }

theorem execSys_cases {nnn : Addr} {s t : State} (h : exec (.sys nnn) s = .next t) :
    TakesFault (encodeWord (.sys nnn)) s t ∨ Completes (.sys nnn) s t := by
  obtain ⟨-, rfl⟩ | ⟨-, rfl⟩ := unknownWord_cases h
  · exact .inr { output := .inr ⟨_, rfl⟩ }
  · exact .inl (takesFault_of_no_address (by decide))

theorem keySkip_cases {i : Instr} {wanted : Bool} {x : Reg} {w : Word} {s t : State}
    (h : keySkip wanted x w s = .next t) : TakesFault w s t ∨ Completes i s t := by
  cases hk : keyIndex s.cfg (s.getV x) with
  | none =>
    rw [keySkip_of_no_key hk] at h
    cases h
    exact .inl (takesFault_of_no_address (by decide))
  | some k =>
    rw [keySkip_of_key hk] at h
    cases h
    exact .inr (completes_setPc .skip)

theorem execLdF_cases {x : Reg} {s t : State} (h : exec (.ldF x) s = .next t) :
    TakesFault (encodeWord (.ldF x)) s t ∨ Completes (.ldF x) s t := by
  cases hd : glyphIndex s.cfg (s.getV x) with
  | none =>
    rw [exec_ldF_of_no_glyph hd] at h
    cases h
    exact .inl (takesFault_of_no_address (by decide))
  | some d =>
    rw [exec_ldF_of_glyph hd] at h
    cases h
    exact .inr (completes_setI rfl)

theorem execLdVxK_completes {x : Reg} {s t : State} (h : exec (.ldVxK x) s = .next t) : Completes (.ldVxK x) s t := by
  cases hk : leastKeyDown s.key with
  | none =>
    rw [exec_ldVxK_of_no_key hk] at h
    cases h
    exact completes_self ..
  | some k =>
    rw [exec_ldVxK_of_key hk] at h
    cases h
    exact completes_setV (beq_self_eq_true x)

theorem execDrw_cases {x y : Reg} {n : Fin 16} {s t : State} (h : exec (.drw x y n) s = .next t) :
    TakesFault (encodeWord (.drw x y n)) s t ∨ Completes (.drw x y n) s t := by
  refine (takesFault_or_of_ifChecked checkRead_kind h).imp_right fun ⟨_, ht⟩ => ?_
  rw [ht]
  exact
    { registers := fun r hr => State.setV_getV_ne _ _ (by simpa [mayWriteV, regF] using hr)
      display := fun hne => absurd rfl (hne x y n) }

theorem execLdB_cases {x : Reg} {s t : State} (h : exec (.ldB x) s = .next t) :
    TakesFault (encodeWord (.ldB x)) s t ∨ Completes (.ldB x) s t := by
  refine (takesFault_or_of_ifChecked checkWrite_kind h).imp_right fun ⟨hchecks, ht⟩ => ?_
  rw [ht]
  exact { memory := nextMem_pokeBytes rfl (by simp) (by simpa using hchecks) }

theorem execStoreRegs_cases {x : Reg} {s t : State} (h : exec (.storeRegs x) s = .next t) :
    TakesFault (encodeWord (.storeRegs x)) s t ∨ Completes (.storeRegs x) s t := by
  refine (takesFault_or_of_ifChecked checkWrite_kind h).imp_right fun ⟨hchecks, ht⟩ => ?_
  rw [ht]
  exact
    { address := nofun
      memory := nextMem_pokeBytes (s.firstRegs_length x) (by simp) (by simpa using hchecks) }

theorem execLoadRegs_cases {x : Reg} {s t : State} (h : exec (.loadRegs x) s = .next t) :
    TakesFault (encodeWord (.loadRegs x)) s t ∨ Completes (.loadRegs x) s t := by
  refine (takesFault_or_of_ifChecked checkRead_kind h).imp_right fun ⟨_, ht⟩ => ?_
  rw [ht]
  exact
    { registers := fun r hr => (vLoad_peekBytes s x r).trans (if_neg (by simpa [mayWriteV] using hr))
      address := nofun }

/-- Every instruction takes one fault with no other effect, or completes within its frame. -/
theorem exec_cases {i : Instr} {s t : State} (h : exec i s = .next t) :
    TakesFault (encodeWord i) s t ∨ Completes i s t := by
  cases i
  case ret => exact execRet_cases h
  case sys => exact execSys_cases h
  case call => exact execCall_cases h
  case skp | sknp => exact keySkip_cases h
  case ldF => exact execLdF_cases h
  case ldVxK => exact .inr (execLdVxK_completes h)
  case drw => exact execDrw_cases h
  case ldB => exact execLdB_cases h
  case storeRegs => exact execStoreRegs_cases h
  case loadRegs => exact execLoadRegs_cases h
  all_goals
    obtain rfl := Host.Outcome.next.inj h
    right
  case cls => exact { display := fun _ hne => absurd rfl hne }
  case jp nnn => exact completes_setPc (.jumped _ (Nat.le_trans (zextAddr_toNat_le nnn) (by decide)))
  case jpV0 nnn => exact completes_setPc (.jumped _ (offsetTarget_toNat_le nnn (s.getV 0)))
  case seImm | sneImm | seReg | sneReg =>
    rw [State.skipIf_eq]
    exact completes_setPc .skip
  case ldImm | addImm | ldReg | orReg | andReg | xorReg | ldVxDt => exact completes_setV (beq_self_eq_true _)
  case addReg | subReg | shr | subnReg | shl =>
    exact completes_writeFlagged (by simp [mayWriteV]) (by simp [mayWriteV, regF])
  case ldI | addI => exact completes_setI rfl
  case rnd x nn =>
    exact
      { registers := fun r hr => State.setV_getV_ne _ _ (by simpa [mayWriteV] using hr)
        draws := fun hne => absurd rfl (hne x nn) }
  case ldDtVx x => exact { delay := fun hne => absurd rfl (hne x) }
  case ldStVx x => exact { sound := fun hne => absurd rfl (hne x) }

end Sys2Proof.Machine

/-! SUPPORT. The frames over all instructions (10_state.md sections 2 to 10): each is one field of `Completes`, and a
fault keeps them all. -/

namespace Sys2Proof.Machine

/-- An instruction that completes keeps each byte it does not store. -/
theorem Completes.peek_outside {i : Instr} {s t : State} (h : Completes i s t) {a : Nat}
    (ha : a < s.i.toNat ∨ s.i.toNat + storedBytes i ≤ a) : t.peek a = s.peek a := by
  obtain ⟨-, -, hcfg, -⟩ := h.inputs
  rw [State.peek, State.peek, hcfg]
  obtain hm | ⟨bs, hlen, hm, -, -⟩ := h.memory
  · rw [hm]
  · rw [hm]
    exact memRead_memWriteBytes_outside (by omega)

/-- Settles O53: a register outside `mayWriteV` is kept by an instruction that completes, and a fault keeps all. -/
theorem registersOutsideDestinationsAreKept : Obligations.RegistersOutsideDestinationsAreKept := by
  intro i s t r h hr
  obtain ⟨kind, address, rfl, -⟩ | hc := exec_cases h
  · rfl
  · exact hc.registers r hr

/-- Settles O54: an instruction that completes writes `storedBytes` bytes from `I` on or none, and a fault stores
nothing. -/
theorem bytesOutsideStoresAreKept : Obligations.BytesOutsideStoresAreKept := by
  intro i s t a h ha
  obtain ⟨kind, address, rfl, -⟩ | hc := exec_cases h
  · rfl
  · exact hc.peek_outside ha

/-- Settles O55: each clause is a field of the frame of an instruction that completes, and a fault changes none of
these fields. -/
theorem otherStateIsKept : Obligations.OtherStateIsKept := by
  intro i s t h
  obtain ⟨kind, address, rfl, -⟩ | hc := exec_cases h
  · exact ⟨fun _ => rfl, fun _ => ⟨rfl, fun _ => rfl⟩, fun _ => rfl, fun _ => rfl, fun _ _ => ⟨rfl, rfl⟩,
      fun _ => rfl, rfl, rfl, rfl, rfl⟩
  · have hstack : (∀ nnn, i ≠ .call nnn) → t.stack = s.stack := fun hne =>
      hc.stack.resolve_right fun ⟨⟨nnn, hi⟩, _⟩ => hne nnn hi
    exact ⟨hc.address, fun hne => ⟨hstack hne, hc.depth hne⟩, hc.delay, hc.sound, hc.display, hc.draws, hc.inputs⟩

/-- Settles O56: a fault is `raise` and nothing else, and an instruction that completes keeps the control state and
emits at most a diagnostic. -/
theorem instructionFaultsArePrecise : Obligations.InstructionFaultsArePrecise := by
  intro i s t h
  obtain ⟨kind, address, rfl, -⟩ | hc := exec_cases h
  · exact .inl ⟨_, rfl, State.raise_eq_afterFault ..⟩
  · exact .inr ⟨hc.control.1, hc.control.2, hc.output⟩

/-! ### What no instruction reads -/

theorem exec_keeps_st {i : Instr} {s t : State} (hi : ∀ x, i ≠ .ldStVx x) (h : exec i s = .next t) :
    t.st = s.st := by
  obtain ⟨kind, address, rfl, -⟩ | hc := exec_cases h
  · rfl
  · exact hc.sound hi

theorem exec_keeps_keyBuf {i : Instr} {s t : State} (h : exec i s = .next t) : t.keyBuf = s.keyBuf := by
  obtain ⟨kind, address, rfl, -⟩ | hc := exec_cases h
  · rfl
  · exact hc.inputs.1

/-- `s` with another live key buffer and another sound timer, the two pieces of state that no instruction reads. -/
def State.withUnread (s : State) (keys : Vector Bool 16) (sound : Byte) : State :=
  { s with keyBuf := keys, st := sound }

section
variable {s t : State} {keys : Vector Bool 16} {sound : Byte}

theorem State.ifChecked_withUnread {effect : State} {w : Word} {failure : Option (FaultKind × Nat)}
    (h : s.ifChecked w failure effect = .next t) :
    (s.withUnread keys sound).ifChecked w failure (effect.withUnread keys sound) =
      .next (t.withUnread keys sound) := by
  obtain ⟨kind, a, rfl, rfl⟩ | ⟨rfl, rfl⟩ := State.ifChecked_cases h <;> rfl

theorem unknownWord_withUnread {w : Word} (h : unknownWord w s = .next t) :
    unknownWord w (s.withUnread keys sound) = .next (t.withUnread keys sound) := by
  have hcfg : (s.withUnread keys sound).cfg = s.cfg := rfl
  obtain ⟨hp, rfl⟩ | ⟨hp, rfl⟩ := unknownWord_cases h <;> rw [unknownWord, hcfg, hp] <;> rfl

theorem keySkip_withUnread {wanted : Bool} {x : Reg} {w : Word} (h : keySkip wanted x w s = .next t) :
    keySkip wanted x w (s.withUnread keys sound) = .next (t.withUnread keys sound) := by
  cases hk : keyIndex s.cfg (s.getV x) with
  | none =>
    rw [keySkip_of_no_key hk] at h
    cases h
    exact keySkip_of_no_key hk
  | some k =>
    rw [keySkip_of_key hk] at h
    cases h
    exact keySkip_of_key hk

theorem execCall_withUnread {nnn : Addr} (h : exec (.call nnn) s = .next t) :
    exec (.call nnn) (s.withUnread keys sound) = .next (t.withUnread keys sound) := by
  cases hp : s.push (s.pc + 2) with
  | none =>
    have hfull : s.sp = 16 := State.push_eq_none.mp hp
    rw [exec_call_of_push_none hp] at h
    cases h
    exact exec_call_of_push_none (s := s.withUnread keys sound) (State.push_eq_none.mpr hfull)
  | some pushed =>
    rw [exec_call_of_push hp] at h
    cases h
    obtain ⟨hs, rfl⟩ := State.push_eq_some hp
    exact exec_call_of_push (s := s.withUnread keys sound) (dif_pos hs)

theorem execRet_withUnread (h : exec .ret s = .next t) :
    exec .ret (s.withUnread keys sound) = .next (t.withUnread keys sound) := by
  cases hp : s.pop with
  | none =>
    have hempty : s.sp = 0 := State.pop_eq_none.mp hp
    rw [exec_ret_of_pop_none hp] at h
    cases h
    exact exec_ret_of_pop_none (s := s.withUnread keys sound) (State.pop_eq_none.mpr hempty)
  | some p =>
    rw [exec_ret_of_pop hp] at h
    cases h
    obtain ⟨hs, htarget, hpopped⟩ := State.pop_eq_some hp
    rw [htarget, hpopped]
    exact exec_ret_of_pop (s := s.withUnread keys sound) (dif_pos hs)

theorem execLdF_withUnread {x : Reg} (h : exec (.ldF x) s = .next t) :
    exec (.ldF x) (s.withUnread keys sound) = .next (t.withUnread keys sound) := by
  cases hd : glyphIndex s.cfg (s.getV x) with
  | none =>
    rw [exec_ldF_of_no_glyph hd] at h
    cases h
    exact exec_ldF_of_no_glyph hd
  | some d =>
    rw [exec_ldF_of_glyph hd] at h
    cases h
    exact exec_ldF_of_glyph hd

theorem execLdVxK_withUnread {x : Reg} (h : exec (.ldVxK x) s = .next t) :
    exec (.ldVxK x) (s.withUnread keys sound) = .next (t.withUnread keys sound) := by
  cases hk : leastKeyDown s.key with
  | none =>
    rw [exec_ldVxK_of_no_key hk] at h
    cases h
    exact exec_ldVxK_of_no_key hk
  | some k =>
    rw [exec_ldVxK_of_key hk] at h
    cases h
    exact exec_ldVxK_of_key hk

theorem State.writeFlagged_withUnread (x : Reg) (res : Byte) (flag : Bool) :
    (s.withUnread keys sound).writeFlagged x res flag = (s.writeFlagged x res flag).withUnread keys sound := by
  have hcfg : (s.withUnread keys sound).cfg = s.cfg := rfl
  unfold State.writeFlagged
  rw [hcfg]
  cases s.cfg.vfOrder <;> rfl

theorem State.skipIf_withUnread (c : Bool) :
    (s.withUnread keys sound).skipIf c = (s.skipIf c).withUnread keys sound := by
  rw [State.skipIf_eq, State.skipIf_eq]
  rfl

/-- Every instruction but LD ST does the same with another live key buffer and another sound timer. -/
theorem exec_withUnread {i : Instr} (hi : ∀ x, i ≠ .ldStVx x) (h : exec i s = .next t) :
    exec i (s.withUnread keys sound) = .next (t.withUnread keys sound) := by
  cases i
  case ldStVx x => exact absurd rfl (hi x)
  case ret => exact execRet_withUnread h
  case sys => exact unknownWord_withUnread h
  case call => exact execCall_withUnread h
  case ldF => exact execLdF_withUnread h
  case ldVxK => exact execLdVxK_withUnread h
  case skp | sknp => exact keySkip_withUnread h
  case drw | ldB | storeRegs | loadRegs => exact State.ifChecked_withUnread h
  all_goals obtain rfl := Host.Outcome.next.inj h
  case addReg | subReg | shr | subnReg | shl =>
    exact congrArg (fun u => Host.Outcome.next (State.advance u 2)) (State.writeFlagged_withUnread ..)
  case seImm | sneImm | seReg | sneReg => exact congrArg Host.Outcome.next (State.skipIf_withUnread _)
  all_goals rfl

end

/-- Settles O51: LD ST reads one register, and the others do the same with another key buffer and the sound timer
that they keep. -/
theorem instructionsIgnoreTheLiveKeyBuffer : Obligations.InstructionsIgnoreTheLiveKeyBuffer := by
  intro i s t kb h
  by_cases hi : ∀ x, i ≠ .ldStVx x
  · have hx := exec_withUnread (keys := kb) (sound := s.st) hi h
    exact exec_keeps_st hi h ▸ hx
  · push Not at hi
    obtain ⟨x, rfl⟩ := hi
    obtain rfl := Host.Outcome.next.inj h
    rfl

/-- Settles O52: with the key buffer as it is, another sound timer is carried along by every other instruction. -/
theorem noInstructionReadsTheSoundTimer : Obligations.NoInstructionReadsTheSoundTimer := by
  intro i s t b hi h
  have hx := exec_withUnread (keys := s.keyBuf) (sound := b) hi h
  exact exec_keeps_keyBuf h ▸ hx

end Sys2Proof.Machine

/-! SUPPORT. The cycle as a whole (10_state.md section 10; 60_exceptions.md sections 1 and 3): how it ends, what a
faulting one leaves, and what it copies. -/

namespace Sys2Proof.Machine

/-! ### The end of a cycle -/

theorem decayTimer_ite (mode : TimerMode) (b : Byte) :
    (if mode = .perCycle then decayTimer b else b) = timerAfterCycle mode b := by
  unfold timerAfterCycle decayTimer
  by_cases hm : mode = .perCycle <;> by_cases hb : b = 0#8 <;> simp [hm, hb]

/-- A cycle that took no fault ends with its frame and the timers of its mode (R269, R270, R272). -/
theorem endCycle_eq_of_no_fault {before after : State} (h : after.fault = none) :
    endCycle before after =
      { after with
        out := after.out ++ (if after.refresh then [.frame after.fb] else [])
        dt := timerAfterCycle after.cfg.timerMode after.dt
        st := timerAfterCycle after.cfg.timerMode after.st } := by
  rw [endCycle_of_no_fault h, State.emitFrame_cycleDecay_eq, decayTimer_ite, decayTimer_ite]
  cases after.refresh <;> simp

theorem endCycle_eq_of_no_refresh {before after : State} (h : after.fault = none) (hr : after.refresh = false) :
    endCycle before after =
      { after with
        dt := timerAfterCycle after.cfg.timerMode after.dt
        st := timerAfterCycle after.cfg.timerMode after.st } := by
  rw [endCycle_eq_of_no_fault h, hr, if_neg Bool.false_ne_true, List.append_nil]

/-- The end of a cycle, faulted or not, changes the outputs, the timers and `refresh` alone. -/
theorem endCycle_keeps (before after : State) :
    endCycle before after =
      { after with
        out := (endCycle before after).out, dt := (endCycle before after).dt
        st := (endCycle before after).st, refresh := (endCycle before after).refresh } := by
  by_cases hf : after.fault = none
  · rw [endCycle_eq_of_no_fault hf]
  · rw [endCycle_of_fault (Option.isSome_iff_ne_none.mpr hf)]

@[simp] theorem endCycle_mem (before after : State) : (endCycle before after).mem = after.mem := by
  rw [endCycle_keeps]

@[simp] theorem endCycle_cfg (before after : State) : (endCycle before after).cfg = after.cfg := by
  rw [endCycle_keeps]

@[simp] theorem endCycle_fault (before after : State) : (endCycle before after).fault = after.fault := by
  rw [endCycle_keeps]

@[simp] theorem endCycle_key (before after : State) : (endCycle before after).key = after.key := by
  rw [endCycle_keeps]

@[simp] theorem endCycle_keyBuf (before after : State) : (endCycle before after).keyBuf = after.keyBuf := by
  rw [endCycle_keeps]

/-- Settles O6: with no fault recorded the cycle ends in the frame and the decay, and the frame reads no timer. -/
theorem cycleEndsWithFrameThenDecay : Obligations.CycleEndsWithFrameThenDecay :=
  fun _ _ h => endCycle_eq_of_no_fault h

/-! ### A step that is no cycle -/

theorem step_of_cycle_disabled {s : State} {rest : List Turn} (hc : s.canCycle = false) (hn : s.CyclesNext rest) :
    step s = .next (s.setHost rest) := by
  rw [step_of_cyclesNext hn, cycle_of_disabled ((s.setHost_canCycle rest).trans hc)]

/-- Settles O9: the disabled cycle keeps the state, so only a turn taken is gone, and none where there was none. -/
theorem disabledStepKeepsState : Obligations.DisabledStepKeepsState := fun _ _ hc hn =>
  ⟨step_of_cycle_disabled hc hn, fun hh => (step_of_no_turn hh).trans (cycle_of_disabled hc)⟩

/-! ### The word executed -/

/-- A word executed takes its fault or completes as an instruction; an UNKNOWN word that is skipped completes as
SYS does (R265). -/
theorem execWord_cases {w : Word} {s t : State} (h : execWord w s = .next t) :
    TakesFault w s t ∨ ∃ i, Completes i s t := by
  unfold execWord at h
  cases hd : decodeWord w with
  | ok i =>
    rw [hd] at h
    obtain ⟨-, hw⟩ := encodeWord_of_decodeWord hd
    exact hw ▸ (exec_cases h).imp_right fun hc => ⟨i, hc⟩
  | error e =>
    rw [hd] at h
    obtain ⟨-, rfl⟩ | ⟨-, rfl⟩ := unknownWord_cases h
    · exact .inr ⟨.sys 0, { output := .inr ⟨_, rfl⟩ }⟩
    · exact .inl (takesFault_of_no_address (by decide))

/-- An enabled cycle takes the fault of its fetch, or that of the word fetched, or completes. -/
theorem cycle_enabled_cases {s t : State} (hc : s.canCycle = true) (h : cycle s = .next t) :
    (∃ a, s.fetch = .error a ∧ t = endCycle s (s.beginCycle.raise .addressOutOfRange none (some a))) ∨
    ∃ w u, s.fetch = .ok w ∧ t = endCycle s u ∧
      (TakesFault w s.beginCycle u ∨ ∃ i, Completes i s.beginCycle u) := by
  obtain ⟨hdis, -⟩ | ⟨-, a, hf, rfl⟩ | ⟨-, w, u, hf, hx, rfl⟩ := cycle_cases h
  · simp [hc] at hdis
  · exact .inl ⟨a, hf, rfl⟩
  · exact .inr ⟨w, u, hf, rfl, execWord_cases hx⟩

/-! ### A cycle that faults -/

/-- The end of a cycle that took a fault leaves the state before it with the latch copied and the fault taken. -/
theorem endCycle_raise_beginCycle (s : State) (kind : FaultKind) (word : Option Word) (address : Option Nat) :
    endCycle s (s.beginCycle.raise kind word address) =
      State.afterFault { s with key := s.keyBuf } ⟨kind, s.pc, word, address⟩ := by
  rw [endCycle_of_raise]
  rfl

/-- A cycle that ends with a fault took it from the state in which it began, for its own word. -/
theorem cycle_fault_record {s t : State} (hc : s.canCycle = true) (h : cycle s = .next t) (hfault : t.fault ≠ none) :
    ∃ r : FaultRecord, t = State.afterFault { s with key := s.keyBuf } r ∧ r.pc = s.pc ∧
      (∀ w, s.fetch = .ok w → r.word = some w) ∧ (∀ a, s.fetch = .error a → r.word = none) ∧
      (r.address ≠ none ↔ r.kind = .addressOutOfRange ∨ r.kind = .fontRegionWrite) := by
  obtain ⟨a, hf, rfl⟩ | ⟨w, u, hf, rfl, hu⟩ := cycle_enabled_cases hc h
  · refine ⟨_, endCycle_raise_beginCycle .., rfl, ?_, fun _ _ => rfl, ?_⟩
    · simp [hf]
    · simp
  · obtain ⟨kind, address, rfl, haddr⟩ | ⟨i, hi⟩ := hu
    · refine ⟨_, endCycle_raise_beginCycle .., rfl, ?_, ?_, haddr⟩
      · rintro w' hw'
        rw [hf] at hw'
        cases hw'
        rfl
      · simp [hf]
    · have hnone : u.fault = none := hi.control.2.trans (State.canCycle_iff.mp hc).2
      exact absurd ((endCycle_fault s u).trans hnone) hfault

theorem State.canCycle_of_fault {s : State} (h : s.fault ≠ none) : s.canCycle = false :=
  Bool.eq_false_iff.mpr fun hc => h (State.canCycle_iff.mp hc).2

/-! ### What a host action keeps -/

/-- What every host action but an admitted load keeps; it may make the CORE Stopped, and Running with no fault
recorded (R38, R39). -/
structure HostKeeps (s t : State) : Prop where
  mem : t.mem = s.mem := by rfl
  pc : t.pc = s.pc := by rfl
  stack : t.stack = s.stack := by rfl
  cfg : t.cfg = s.cfg := by rfl
  fault : t.fault = s.fault := by rfl
  control : t.mstate = s.mstate ∨ t.mstate = .stopped ∨ s.fault = none := by exact .inl rfl

theorem hostRun_keeps (s : State) : HostKeeps s (hostRun s) := by
  unfold hostRun
  split
  · next h => exact { control := .inr (.inr h.2) }
  · exact {}

theorem hostStop_keeps (s : State) : HostKeeps s (hostStop s) := by
  unfold hostStop
  split
  · exact { control := .inr (.inl rfl) }
  · exact {}

theorem hostKey_keeps (down : Bool) (hostCode : Nat) (s : State) : HostKeeps s (hostKey down hostCode s) := by
  unfold hostKey
  split <;> exact {}

theorem hostTick_keeps (s : State) : HostKeeps s (hostTick s) := by
  unfold hostTick
  split <;> exact {}

/-- A host action is an admitted load, or keeps the machine. -/
theorem hostAct_cases (a : HostAction) (s : State) :
    (∃ bytes, a = .loadProgram bytes ∧ s.mstate ≠ .running) ∨ HostKeeps s (hostAct a s) := by
  cases a with
  | loadProgram bytes =>
    by_cases h : s.mstate = .running
    · rw [hostAct, hostLoad_of_running bytes h]
      exact .inr {}
    · exact .inl ⟨bytes, rfl, h⟩
  | run => exact .inr (hostRun_keeps s)
  | stop => exact .inr (hostStop_keeps s)
  | isRunning => exact .inr {}
  | keyDown h => exact .inr (hostKey_keeps true h s)
  | keyUp h => exact .inr (hostKey_keeps false h s)
  | tick => exact .inr (hostTick_keeps s)

/-- A step keeps a recorded fault, but for an admitted load, which clears it. -/
theorem step_fault {s t : State} (hfault : s.fault ≠ none) (h : step s = .next t) :
    t.fault = s.fault ∨
    ∃ bytes rest, s.host = .act (.loadProgram bytes) :: rest ∧ s.mstate ≠ .running ∧ t.fault = none ∧
      t.mstate = if bytes.length ≤ 3584 then .loaded else .unloaded := by
  have hc : s.canCycle = false := State.canCycle_of_fault hfault
  obtain ⟨a, rest, hh, rfl⟩ | ⟨rest, hh, -⟩ | ⟨hh, -⟩ := step_cases h
  · obtain ⟨bytes, rfl, hm⟩ | hk := hostAct_cases a (s.setHost rest)
    · exact .inr ⟨bytes, rest, hh, hm, hostLoad_of_admitted bytes hm⟩
    · exact .inl hk.fault
  · rw [step_of_cycle_disabled hc (.inr hh)] at h
    cases h
    exact .inl rfl
  · rw [step_of_cycle_disabled hc (.inl ⟨hh, rfl⟩)] at h
    cases h
    exact .inl rfl

/-- Settles O10: a faulting cycle leaves `afterFault` of the state in which it began, Stopped with its record, so
that no cycle is enabled and only an admitted load clears the record. -/
theorem faultingCycleHasNoOtherEffect : Obligations.FaultingCycleHasNoOtherEffect := by
  refine ⟨fun s t rest hc hn h hfault => ?_, fun s t hfault h => step_fault hfault h⟩
  rw [step_of_cyclesNext hn] at h
  obtain ⟨r, rfl, hpc, hword, hnoword, haddr⟩ :=
    cycle_fault_record ((s.setHost_canCycle rest).trans hc) h hfault
  exact ⟨r, rfl, hpc, hword, hnoword, haddr, rfl, fun rest' hn' => step_of_cycle_disabled rfl hn'⟩

/-! ### The latch -/

/-- Settles O50: the start of the cycle copies the key buffer, and neither the instruction nor the end of the cycle
writes either of the two. -/
theorem cycleLatchesTheKeyBuffer : Obligations.CycleLatchesTheKeyBuffer := by
  intro s t rest hc hn h
  rw [step_of_cyclesNext hn] at h
  obtain ⟨a, -, rfl⟩ | ⟨w, u, -, rfl, hu⟩ := cycle_enabled_cases ((s.setHost_canCycle rest).trans hc) h
  · simp
  · obtain ⟨kind, address, rfl, -⟩ | ⟨i, hi⟩ := hu
    · simp
    · obtain ⟨hbuf, hkey, -⟩ := hi.inputs
      simp [hbuf, hkey]

/-! ### The steps of single cycles -/

theorem State.fetch_of_pc_lt {s : State} (h : s.pc.toNat < 0xFFF) :
    s.fetch = .ok (joinBytes (s.peek s.pc.toNat) (s.peek (s.pc.toNat + 1))) := by
  obtain ⟨-, hf⟩ | ⟨hpast, -⟩ := s.fetch_cases
  · exact hf
  · omega

theorem cycle_of_decoded_word {s : State} {w : Word} {i : Instr} (hc : s.canCycle = true) (hf : s.fetch = .ok w)
    (hd : decodeWord w = .ok i) : cycle s = finishCycle s (exec i s.beginCycle) := by
  rw [cycle_of_fetch hc hf, execWord, hd]

/-- Settles O5: the two bytes at `pc` are the word fetched, and the word decoded is executed from the state in which
the cycle begins. -/
theorem stepRunsDecodedInstruction : Obligations.StepRunsDecodedInstruction := by
  intro s i hc hpc hd
  have hf := State.fetch_of_pc_lt hpc
  obtain ⟨hw, -⟩ := decode_cons_cons_eq_ok hd
  refine ⟨fun hh => ?_, fun rest hh => ?_, fun _ => rfl⟩
  · rw [step_of_no_turn hh, cycle_of_decoded_word hc hf hw]
    rfl
  · rw [step_of_cycle_turn hh]
    exact cycle_of_decoded_word (s := s.setHost rest) hc hf hw

/-- Settles O7: below 0xFFF the two bytes exist and join to the word; from there on the check of the second byte
fails, and the cycle takes that fault and no more. -/
theorem fetchIsBigEndianAndFaultsPastTop : Obligations.FetchIsBigEndianAndFaultsPastTop := by
  intro s
  refine ⟨fun hpc => ⟨_, State.fetch_of_pc_lt hpc, joinBytes_toNat _ _⟩,
    fun hpc => State.fetch_of_pc_past_end hpc, fun rest hpc hc hn => ?_⟩
  have hf : (s.setHost rest).fetch = .error (s.pc.toNat + 1) := State.fetch_of_pc_past_end hpc
  rw [step_of_cyclesNext hn, cycle_of_fetch_fault (s := s.setHost rest) hc hf, endCycle_raise_beginCycle]
  rfl

theorem execWord_of_unknown {w : Word} (hd : decodeWord w = .error (.unknown w)) (s : State) :
    execWord w s = unknownWord w s := by
  rw [execWord, hd]

theorem unknownWord_of_skip {w : Word} {s : State} (h : s.cfg.unknownOpcode = .skip) :
    unknownWord w s = .next ((s.emit (.unknownOpcode s.pc w)).advance 2) := by
  rw [unknownWord, h]

theorem unknownWord_of_halt {w : Word} {s : State} (h : s.cfg.unknownOpcode = .halt) :
    unknownWord w s = .next (s.raise .unknownOpcode (some w) none) := by
  rw [unknownWord, h]

/-- Settles O8: an UNKNOWN word is handled by the policy, and the cycle then ends as for any instruction: with the
decay where it was skipped, and with the fault alone where it was not. -/
theorem unknownWordFollowsPolicy : Obligations.UnknownWordFollowsPolicy := by
  intro s rest w hc hn hf hd
  have hstep : step s = finishCycle (s.setHost rest) (unknownWord w (s.setHost rest).beginCycle) := by
    rw [step_of_cyclesNext hn, cycle_of_fetch (s := s.setHost rest) hc hf, execWord_of_unknown hd]
  have hfault : s.fault = none := (State.canCycle_iff.mp hc).2
  refine ⟨fun hp => ?_, fun hp => ?_⟩
  · rw [hstep, unknownWord_of_skip (s := (s.setHost rest).beginCycle) hp, finishCycle,
      endCycle_eq_of_no_refresh (by exact hfault) (by rfl)]
    rfl
  · rw [hstep, unknownWord_of_halt (s := (s.setHost rest).beginCycle) hp, finishCycle, endCycle_raise_beginCycle]
    rfl

end Sys2Proof.Machine

/-! SUPPORT. The invariants of the machine (10_state.md sections 4 and 5; 20_memory.md section 3): the reset state
meets them, and a host action, an instruction and a cycle keep them. -/

namespace Sys2Proof.Machine

/-! ### Memory after a load -/

theorem State.peek_pokeBytes_outside (s : State) {a c : Nat} {bs : List Byte} (h : c < a ∨ a + bs.length ≤ c) :
    (s.pokeBytes a bs).peek c = s.peek c :=
  memRead_memWriteBytes_outside h

theorem State.peek_pokeBytes_inside {s : State} {a k : Nat} {bs : List Byte} (hwf : s.mem.wf s.cfg.font = true)
    (ha : a + bs.length ≤ 4096) (hk : k < bs.length) : (s.pokeBytes a bs).peek (a + k) = bs[k] :=
  memRead_memWriteBytes_inside hwf ha hk

theorem blankByte_of_lt {font : Font} (a : Fin 80) : blankByte font a.val = font[a] := dif_pos a.isLt

theorem blankByte_of_le {font : Font} {a : Nat} (h : 80 ≤ a) : blankByte font a = 0#8 := dif_neg (by omega)

/-- An admitted load leaves the blank memory, with the program in it where it fits (R302). -/
theorem hostLoad_mem {s : State} (bytes : List Byte) (h : s.mstate ≠ .running) :
    (hostLoad bytes s).mem = [] ∨
    0x200 + bytes.length ≤ 4096 ∧ (hostLoad bytes s).mem = memWriteBytes s.cfg.font [] 0x200 bytes := by
  by_cases hlen : 0x200 + bytes.length > 4096
  · exact .inl (by rw [hostLoad_of_too_large h hlen]; rfl)
  · exact .inr ⟨by omega, by rw [hostLoad_of_fits h hlen]; rfl⟩

/-- An admitted load resets `pc` and the stack and keeps the parameters (R301, R302). -/
theorem hostLoad_reset {s : State} (bytes : List Byte) (h : s.mstate ≠ .running) :
    (hostLoad bytes s).pc = 0x200#16 ∧ (hostLoad bytes s).stack = Vector.replicate 16 0#16 ∧
      (hostLoad bytes s).cfg = s.cfg ∧ (hostLoad bytes s).fault = none := by
  by_cases hlen : 0x200 + bytes.length > 4096
  · rw [hostLoad_of_too_large h hlen]
    exact ⟨rfl, rfl, rfl, rfl⟩
  · rw [hostLoad_of_fits h hlen]
    exact ⟨rfl, rfl, rfl, rfl⟩

/-! ### The invariant of O57 -/

theorem stack_replicate_le (j : Fin 16) : ((Vector.replicate 16 0#16 : Vector Word 16)[j]).toNat ≤ 0x1000 := by
  simp

/-- Settles O58: memory lists nothing, `pc` is 0x200, every stack entry is 0, and no fault is recorded. -/
theorem resetMeetsTheInvariant : Obligations.ResetMeetsTheInvariant :=
  { memory := rfl
    pcBound := by decide
    returnAddresses := stack_replicate_le
    faultStops := fun h => absurd rfl h }

theorem State.Inv.setHost {s : State} (h : s.Inv) (turns : List Turn) : (s.setHost turns).Inv :=
  ⟨h.memory, h.pcBound, h.returnAddresses, h.faultStops⟩

theorem State.Inv.beginCycle {s : State} (h : s.Inv) : s.beginCycle.Inv :=
  ⟨h.memory, h.pcBound, h.returnAddresses, h.faultStops⟩

theorem State.Inv.raise {s : State} (h : s.Inv) (kind : FaultKind) (word : Option Word) (address : Option Nat) :
    (s.raise kind word address).Inv :=
  ⟨h.memory, h.pcBound, h.returnAddresses, fun _ => rfl⟩

theorem State.Inv.endCycle {before after : State} (h : after.Inv) : (endCycle before after).Inv := by
  rw [endCycle_keeps]
  exact ⟨h.memory, h.pcBound, h.returnAddresses, h.faultStops⟩

theorem hostLoad_inv {s : State} (bytes : List Byte) (h : s.mstate ≠ .running) : (hostLoad bytes s).Inv := by
  obtain ⟨hpc, hstack, hcfg, hfault⟩ := hostLoad_reset bytes h
  refine ⟨?_, by rw [hpc]; decide, by rw [hstack]; exact stack_replicate_le, fun hne => absurd hfault hne⟩
  rw [hcfg]
  obtain hm | ⟨hlen, hm⟩ := hostLoad_mem bytes h
  · rw [hm]
    rfl
  · rw [hm]
    exact memWriteBytes_wf hlen rfl

theorem HostKeeps.inv {s t : State} (hk : HostKeeps s t) (h : s.Inv) : t.Inv := by
  refine ⟨?_, by rw [hk.pc]; exact h.pcBound, by rw [hk.stack]; exact h.returnAddresses, fun hne => ?_⟩
  · rw [hk.mem, hk.cfg]
    exact h.memory
  · rw [hk.fault] at hne
    obtain hm | hm | hnone := hk.control
    · exact hm.trans (h.faultStops hne)
    · exact hm
    · exact absurd hnone hne

theorem hostAct_inv {s : State} (a : HostAction) (h : s.Inv) : (hostAct a s).Inv := by
  obtain ⟨bytes, rfl, hm⟩ | hk := hostAct_cases a s
  · exact hostLoad_inv bytes hm
  · exact hk.inv h

/-- From an address that can be fetched, the next `pc` is within the bound of R26. -/
theorem NextPc.le {s : State} {a : Word} (h : NextPc s a) (hs : s.Inv) (hpc : s.pc.toNat ≤ 0xFFE) :
    a.toNat ≤ 0x10FE := by
  cases h with
  | kept => exact hs.pcBound
  | advanced n hn => rw [BitVec.toNat_add]; omega
  | jumped _ ha => exact ha
  | popped j => exact Nat.le_trans (hs.returnAddresses j) (by decide)

theorem NextMem.wf {i : Instr} {s : State} {m : Memory} (h : NextMem i s m) (hs : s.Inv) :
    m.wf s.cfg.font = true := by
  obtain rfl | ⟨bs, -, rfl, hlen, -⟩ := h
  · exact hs.memory
  · exact memWriteBytes_wf hlen hs.memory

/-- An instruction executed in a cycle keeps the invariant where it completes: the address it may push is at most
0x1000. -/
theorem Completes.inv {i : Instr} {s t : State} (hc : Completes i s t) (hs : s.Inv) (hpc : s.pc.toNat ≤ 0xFFE) :
    t.Inv := by
  obtain ⟨-, -, hcfg, -⟩ := hc.inputs
  refine ⟨hcfg ▸ hc.memory.wf hs, hc.pc.le hs hpc, fun j => ?_, fun hne => ?_⟩
  · obtain hst | ⟨-, k, hst⟩ := hc.stack
    · rw [hst]
      exact hs.returnAddresses j
    · rw [hst]
      show ((s.stack.set k.val (s.pc + 2))[j.val]).toNat ≤ 0x1000
      rw [Vector.getElem_set]
      split
      · rw [BitVec.toNat_add, show (2 : Word).toNat = 2 from rfl]
        omega
      · exact hs.returnAddresses j
  · obtain ⟨hm, hf⟩ := hc.control
    exact hm.trans (hs.faultStops (hf ▸ hne))

theorem cycle_inv {s t : State} (hs : s.Inv) (h : cycle s = .next t) : t.Inv := by
  cases hc : s.canCycle with
  | false =>
    rw [cycle_of_disabled hc] at h
    exact Host.Outcome.next.inj h ▸ hs
  | true =>
    obtain ⟨a, -, rfl⟩ | ⟨w, u, hf, rfl, hu⟩ := cycle_enabled_cases hc h
    · exact (hs.beginCycle.raise ..).endCycle
    · obtain ⟨kind, address, rfl, -⟩ | ⟨i, hi⟩ := hu
      · exact (hs.beginCycle.raise ..).endCycle
      · have hpc : s.pc.toNat ≤ 0xFFE := by
          obtain ⟨hle, -⟩ | ⟨-, herr⟩ := s.fetch_cases
          · omega
          · rw [hf] at herr
            cases herr
        exact (hi.inv hs.beginCycle hpc).endCycle

/-- Settles O57: a turn of the host keeps the invariant, and so does a cycle, which executes only below 0xFFF. -/
theorem stepKeepsTheInvariant : Obligations.StepKeepsTheInvariant := by
  intro s t hs h
  obtain ⟨a, rest, -, rfl⟩ | ⟨rest, -, hcy⟩ | ⟨-, hcy⟩ := step_cases h
  · exact hostAct_inv a (hs.setHost rest)
  · exact cycle_inv (hs.setHost rest) hcy
  · exact cycle_inv hs hcy

/-! ### The font under FONT_WRITE_POLICY `fault` -/

/-- `t` has the parameters of `s`, and its font region is intact where that of `s` is. -/
def KeepsFont (s t : State) : Prop := (s.FontIntact → t.FontIntact) ∧ t.cfg = s.cfg

theorem keepsFont_of_mem_eq {s t : State} (hm : t.mem = s.mem) (hcfg : t.cfg = s.cfg) : KeepsFont s t := by
  refine ⟨fun h a => ?_, hcfg⟩
  rw [State.peek, hm, hcfg]
  exact h a

theorem KeepsFont.trans {s t u : State} (h : KeepsFont s t) (h' : KeepsFont t u) : KeepsFont s u :=
  ⟨fun hs => h'.1 (h.1 hs), h'.2.trans h.2⟩

theorem endCycle_keepsFont (before after : State) : KeepsFont after (endCycle before after) :=
  keepsFont_of_mem_eq (endCycle_mem ..) (endCycle_cfg ..)

theorem hostLoad_fontIntact {s : State} (bytes : List Byte) (h : s.mstate ≠ .running) :
    (hostLoad bytes s).FontIntact := by
  obtain ⟨-, -, hcfg, -⟩ := hostLoad_reset bytes h
  intro a
  have hblank : memRead s.cfg.font [] a.val = s.cfg.font[a] := blankByte_of_lt a
  rw [State.peek, hcfg, ← hblank]
  obtain hm | ⟨-, hm⟩ := hostLoad_mem bytes h
  · rw [hm]
  · rw [hm]
    exact memRead_memWriteBytes_outside (by omega)

theorem hostAct_keepsFont (a : HostAction) (s : State) : KeepsFont s (hostAct a s) := by
  obtain ⟨bytes, rfl, hm⟩ | hk := hostAct_cases a s
  · obtain ⟨-, -, hcfg, -⟩ := hostLoad_reset bytes hm
    exact ⟨fun _ => hostLoad_fontIntact bytes hm, hcfg⟩
  · exact keepsFont_of_mem_eq hk.mem hk.cfg

/-- Under the policy `fault` an instruction that completes stored only above the font region. -/
theorem Completes.keepsFont {i : Instr} {s t : State} (hc : Completes i s t) (hp : s.cfg.fontWrite = .fault) :
    KeepsFont s t := by
  obtain ⟨-, -, hcfg, -⟩ := hc.inputs
  obtain hm | ⟨bs, -, hm, -, hfont | hfont⟩ := hc.memory
  · exact keepsFont_of_mem_eq hm hcfg
  · refine ⟨fun h a => ?_, hcfg⟩
    rw [State.peek, hm, hcfg, memRead_memWriteBytes_outside (by omega)]
    exact h a
  · rw [hp] at hfont
    cases hfont

theorem cycle_keepsFont {s t : State} (hp : s.cfg.fontWrite = .fault) (h : cycle s = .next t) : KeepsFont s t := by
  cases hc : s.canCycle with
  | false =>
    rw [cycle_of_disabled hc] at h
    cases h
    exact keepsFont_of_mem_eq rfl rfl
  | true =>
    obtain ⟨a, -, rfl⟩ | ⟨w, u, -, rfl, hu⟩ := cycle_enabled_cases hc h
    · exact keepsFont_of_mem_eq (endCycle_mem ..) (endCycle_cfg ..)
    · obtain ⟨kind, address, rfl, -⟩ | ⟨i, hi⟩ := hu
      · exact keepsFont_of_mem_eq (endCycle_mem ..) (endCycle_cfg ..)
      · exact KeepsFont.trans (t := u) (hi.keepsFont hp) (endCycle_keepsFont s u)

/-- Settles O59: an admitted load leaves the font as the blank memory has it, the other host actions and a fault
store nothing, and no instruction that completes stores below 0x050. -/
theorem stepKeepsTheFontUnderFaultPolicy : Obligations.StepKeepsTheFontUnderFaultPolicy := by
  intro s t hp hs h
  suffices hk : KeepsFont s t from ⟨hk.1 hs, hk.2⟩
  obtain ⟨a, rest, -, rfl⟩ | ⟨rest, -, hcy⟩ | ⟨-, hcy⟩ := step_cases h
  · exact hostAct_keepsFont a (s.setHost rest)
  · exact cycle_keepsFont (s := s.setHost rest) hp hcy
  · exact cycle_keepsFont hp hcy

/-! ### The reset state -/

/-- Settles O60: each field of the reset state is written out, and memory that lists nothing reads as the font and
zeros. -/
theorem resetLeavesWhatTheSpecSays : Obligations.ResetLeavesWhatTheSpecSays := by
  have hv : ∀ r : Reg, State.reset.getV r = 0#8 := fun r => by simp [State.getV, State.reset]
  have hstack : ∀ j : Fin 16, State.reset.stack[j] = 0#16 := fun j => by simp [State.reset]
  have hkeys : ∀ k : Key, State.reset.keyBuf[k] = false ∧ State.reset.key[k] = false := fun k => by
    simp [State.reset]
  have hfont : ∀ a : Fin 80, State.reset.peek a.val = State.reset.cfg.font[a] := fun a => blankByte_of_lt a
  have hzero : ∀ a, 80 ≤ a → State.reset.peek a = 0#8 := fun a ha => blankByte_of_le ha
  exact ⟨rfl, rfl, rfl, hv, rfl, rfl, rfl, hstack, rfl, rfl, pixelAt_clearFb, hkeys, hfont, hzero,
    rfl, rfl, rfl, rfl, rfl, rfl⟩

end Sys2Proof.Machine

/-! SUPPORT. The host's turns (60_exceptions.md sections 3 to 5; 70_reset_and_hazards.md sections 1 and 2): a step
whose turn is an action is that action on the state without the turn. -/

namespace Sys2Proof.Machine

/-! ### Loads -/

/-- The step of an admitted load that fits (R302). -/
theorem step_load_of_fits {s : State} {bytes : List Byte} {rest : List Turn}
    (hh : s.host = .act (.loadProgram bytes) :: rest) (hm : s.mstate ≠ .running) (hlen : bytes.length ≤ 3584) :
    step s = .next
      { State.reset with
        mem := memWriteBytes s.cfg.font [] 0x200 bytes, mstate := .loaded, cfg := s.cfg, host := rest
        out := s.out ++ [.loadResult .ok], draws := s.draws } := by
  rw [step_of_action hh, hostAct, hostLoad_of_fits (s := s.setHost rest) hm (by omega)]
  rfl

/-- The step of an admitted load that does not fit (R302). -/
theorem step_load_of_too_large {s : State} {bytes : List Byte} {rest : List Turn}
    (hh : s.host = .act (.loadProgram bytes) :: rest) (hm : s.mstate ≠ .running) (hlen : 3584 < bytes.length) :
    step s = .next
      { State.reset with
        cfg := s.cfg, host := rest, out := s.out ++ [.loadResult .programTooLarge], draws := s.draws } := by
  rw [step_of_action hh, hostAct, hostLoad_of_too_large (s := s.setHost rest) hm (by omega)]
  rfl

/-- Settles O43: the load writes the program's bytes over the blank memory, which reads as the font and zeros
outside them. -/
theorem loadProgramResetsAndCopies : Obligations.LoadProgramResetsAndCopies := by
  intro s bytes rest hh hm hlen
  refine ⟨_, step_load_of_fits hh hm hlen, rfl, ?_, fun k hk => ?_, fun a => ?_, fun a ha hout => ?_⟩
  · exact memWriteBytes_wf (by omega) rfl
  · exact memRead_memWriteBytes_inside rfl (by omega) hk
  · exact (memRead_memWriteBytes_outside (by omega)).trans (blankByte_of_lt a)
  · exact (memRead_memWriteBytes_outside hout).trans (blankByte_of_le ha)

/-! ### run(), stop() and isRunning() -/

theorem step_run_of_admitted {s : State} {rest : List Turn} (hh : s.host = .act .run :: rest)
    (hm : s.mstate = .loaded ∨ s.mstate = .stopped) (hf : s.fault = none) :
    step s = .next { s with host := rest, mstate := .running } := by
  rw [step_of_action hh, hostAct, hostRun_of_admitted (s := s.setHost rest) ⟨hm, hf⟩]
  rfl

theorem step_run_of_not_admitted {s : State} {rest : List Turn} (hh : s.host = .act .run :: rest)
    (h : (s.mstate ≠ .loaded ∧ s.mstate ≠ .stopped) ∨ s.fault ≠ none) :
    step s = .next { s with host := rest } := by
  have hno : ¬ ((s.mstate = .loaded ∨ s.mstate = .stopped) ∧ s.fault = none) := by tauto
  rw [step_of_action hh, hostAct, hostRun_of_not_admitted (s := s.setHost rest) hno]
  rfl

/-- Settles O44: a load that does not fit leaves the reset state, which is Unloaded, so that run() is refused. -/
theorem loadProgramTooLargeUnloads : Obligations.LoadProgramTooLargeUnloads := by
  intro s bytes rest hh hm hlen
  refine ⟨_, step_load_of_too_large hh hm hlen, rfl, fun rest' hrun => ?_⟩
  exact step_run_of_not_admitted hrun (.inl ⟨nofun, nofun⟩)

/-- Settles O45: run() and stop() write `mstate` alone where they are admitted, and isRunning() emits the test of
`mstate`. -/
theorem runStopAndIsRunning : Obligations.RunStopAndIsRunning := by
  refine fun s rest => ⟨step_run_of_admitted, fun hh hm => ?_, fun hh => ?_⟩
  · rw [step_of_action hh, hostAct, hostStop_of_admitted (s := s.setHost rest) hm]
    rfl
  · exact ⟨s.mstate == .running, step_of_action hh, beq_iff_eq⟩

/-- Settles O46: each action that is not admitted answers the state it got, which is `s` without the turn. -/
theorem actionsNotAdmittedChangeNothing : Obligations.ActionsNotAdmittedChangeNothing := by
  refine fun s rest => ⟨step_run_of_not_admitted, fun hh hm => ?_, fun bytes hh hm => ?_, fun hh hno => ?_⟩
  · rw [step_of_action hh, hostAct, hostStop_of_not_admitted (s := s.setHost rest) hm]
    rfl
  · rw [step_of_action hh, hostAct, hostLoad_of_running (s := s.setHost rest) bytes hm]
    rfl
  · have hno' : ¬ (s.cfg.timerMode = .tick60 ∧ s.mstate = .running) := by
      rintro ⟨htick, hrun⟩
      obtain hno | hno := hno
      · exact hno hrun
      · rw [hno] at htick
        cases htick
    rw [step_of_action hh, hostAct, hostTick_of_not_admitted (s := s.setHost rest) hno']
    rfl

/-! ### Key events and ticks -/

theorem hostKey_setHost_of_mapped {s : State} {code : Nat} {k : Key} (down : Bool) (rest : List Turn)
    (h : translateKey s.cfg.hostKeymap code = some k) :
    hostKey down code (s.setHost rest) = { s with host := rest, keyBuf := s.keyBuf.set k down } :=
  hostKey_of_mapped (s := s.setHost rest) down h

theorem hostKey_setHost_of_unmapped {s : State} {code : Nat} (down : Bool) (rest : List Turn)
    (h : translateKey s.cfg.hostKeymap code = none) : hostKey down code (s.setHost rest) = { s with host := rest } :=
  hostKey_of_unmapped (s := s.setHost rest) down h

/-- Settles O47: both events look their code up in HOST_KEYMAP and write the flag found, or nothing. -/
theorem keyEventsWriteOneFlag : Obligations.KeyEventsWriteOneFlag := by
  refine fun s h rest => ⟨fun k hk => ⟨fun hh => ?_, fun hh => ?_⟩, fun hk hh => ?_⟩
  · rw [step_of_action hh, hostAct, hostKey_setHost_of_mapped true rest hk]
  · rw [step_of_action hh, hostAct, hostKey_setHost_of_mapped false rest hk]
  · obtain hh | hh := hh
    · rw [step_of_action hh, hostAct, hostKey_setHost_of_unmapped true rest hk]
    · rw [step_of_action hh, hostAct, hostKey_setHost_of_unmapped false rest hk]

theorem timerAfterCycle_tick60 (b : Byte) : timerAfterCycle .tick60 b = b := rfl

/-- Settles O48: the tick is the decay of both timers, and the end of a cycle leaves them under `tick60`. -/
theorem ticksDecayTimersUnderTick60 : Obligations.TicksDecayTimersUnderTick60 := by
  refine fun s rest hmode hm => ⟨fun hh => ?_, fun before hf => ?_⟩
  · rw [step_of_action hh, hostAct, hostTick_of_admitted (s := s.setHost rest) ⟨hmode, hm⟩]
    rfl
  · rw [endCycle_eq_of_no_fault hf, hmode]
    exact ⟨timerAfterCycle_tick60 s.dt, timerAfterCycle_tick60 s.st⟩

/-! ### Start of a program -/

/-- Settles O49: the load places the first two bytes where the reset `pc` stands, and run() keeps both. -/
theorem bootFetchesTheFirstWord : Obligations.BootFetchesTheFirstWord := by
  intro b0 b1 bytes hlen
  have hfits : (b0 :: b1 :: bytes).length ≤ 3584 := by simp only [List.length_cons]; omega
  have hb0 : memRead conventionalFont (memWriteBytes conventionalFont [] 0x200 (b0 :: b1 :: bytes)) 0x200 = b0 :=
    memRead_memWriteBytes_inside (k := 0) rfl (by omega) (by simp)
  have hb1 : memRead conventionalFont (memWriteBytes conventionalFont [] 0x200 (b0 :: b1 :: bytes)) 0x201 = b1 :=
    memRead_memWriteBytes_inside (k := 1) rfl (by omega) (by simp)
  refine ⟨_, _, step_load_of_fits rfl nofun hfits, step_run_of_admitted rfl (.inl rfl) rfl, rfl, rfl, ?_⟩
  rw [State.fetch_of_pc_lt (show (0x200#16).toNat < 0xFFF by decide)]
  exact congrArg Except.ok (congrArg₂ joinBytes hb0 hb1)

end Sys2Proof.Machine

/-! SUPPORT. The instructions on registers alone (43_alu.md; 42_skips.md; 45_keys_timers.md): one equation each, and
what a register write or a flagged result leaves. -/

namespace Sys2Proof.Machine

/-! ### One register written -/

/-- What an instruction that writes one register and advances leaves: the register holds the value, the others are
as they were. -/
theorem setV_advance_spec (s : State) (x : Reg) (b : Byte) :
    (s.setV x b).advance 2 = { s with v := ((s.setV x b).advance 2).v, pc := s.pc + 2 } ∧
      ((s.setV x b).advance 2).getV x = b ∧ ∀ r, r ≠ x → ((s.setV x b).advance 2).getV r = s.getV r :=
  ⟨rfl, by rw [State.advance_getV, State.setV_getV_self],
    fun r hr => by rw [State.advance_getV, State.setV_getV_ne s b hr]⟩

/-- A binary operation on bits, as the next state of an instruction that writes it to Vx. -/
theorem setV_advance_bits {s : State} {x : Reg} {b : Byte} {bit : Nat → Bool} (hb : ∀ k, b.getLsbD k = bit k) :
    (s.setV x b).advance 2 = { s with v := ((s.setV x b).advance 2).v, pc := s.pc + 2 } ∧
      (∀ k, (((s.setV x b).advance 2).getV x).getLsbD k = bit k) ∧
      ∀ r, r ≠ x → ((s.setV x b).advance 2).getV r = s.getV r := by
  obtain ⟨heq, hx, hr⟩ := setV_advance_spec s x b
  exact ⟨heq, fun k => hx.symm ▸ hb k, hr⟩

theorem exec_ldReg (x y : Reg) (s : State) : exec (.ldReg x y) s = .next ((s.setV x (s.getV y)).advance 2) := rfl

theorem exec_orReg (x y : Reg) (s : State) :
    exec (.orReg x y) s = .next ((s.setV x (s.getV x ||| s.getV y)).advance 2) := rfl

theorem exec_andReg (x y : Reg) (s : State) :
    exec (.andReg x y) s = .next ((s.setV x (s.getV x &&& s.getV y)).advance 2) := rfl

theorem exec_xorReg (x y : Reg) (s : State) :
    exec (.xorReg x y) s = .next ((s.setV x (s.getV x ^^^ s.getV y)).advance 2) := rfl

theorem exec_rnd (x : Reg) (nn : Byte) (s : State) :
    exec (.rnd x nn) s =
      .next ((State.setV { s with draws := s.draws + 1 } x (Config.randomByte s.draws &&& nn)).advance 2) := rfl

/-- Settles O24: each of the four writes one value to Vx, whose bits are those of the operation. -/
theorem logicOperationsWriteVxAlone : Obligations.LogicOperationsWriteVxAlone := by
  refine fun x y s => ⟨exec_ldReg x y s, ⟨_, exec_orReg x y s, ?_⟩, ⟨_, exec_andReg x y s, ?_⟩,
    ⟨_, exec_xorReg x y s, ?_⟩⟩
  · exact setV_advance_bits fun k => BitVec.getLsbD_or
  · exact setV_advance_bits fun k => BitVec.getLsbD_and
  · exact setV_advance_bits fun k => BitVec.getLsbD_xor

/-- Settles O29: the byte drawn is masked bit by bit, and the next draw is another. -/
theorem rndMasksAFreshDraw : Obligations.RndMasksAFreshDraw := by
  intro x nn s
  obtain ⟨heq, hbits, hr⟩ := setV_advance_bits (s := { s with draws := s.draws + 1 }) (x := x)
    (b := Config.randomByte s.draws &&& nn) fun k => BitVec.getLsbD_and
  exact ⟨_, exec_rnd x nn s, heq, hbits, hr⟩

/-! ### A result and a flag -/

/-- The two writes of R182 and the advance leave the result and the flag as `LeavesResultAndFlag` says. -/
theorem writeFlagged_leaves {s : State} {x : Reg} {res : Byte} {flag : Bool} {resNat flagNat : Nat}
    (hres : res.toNat = resNat) (hflag : (flagByte flag).toNat = flagNat) :
    LeavesResultAndFlag s ((s.writeFlagged x res flag).advance 2) x resNat flagNat := by
  refine ⟨by rw [State.writeFlagged_eq]; rfl, fun r => ?_⟩
  rw [State.advance_getV, State.writeFlagged_getV, ← hres, ← hflag, regF]
  split
  · rfl
  · split <;> rfl

theorem flagByte_toNat (flag : Bool) : (flagByte flag).toNat = if flag then 1 else 0 := by
  cases flag <;> rfl

theorem carryFlag_toNat (a b : Byte) :
    (flagByte (carryFlag a b)).toNat = if a.toNat + b.toNat > 255 then 1 else 0 := by
  simp only [flagByte_toNat, carryFlag, decide_eq_true_eq]

theorem notBorrowFlag_toNat (a b : Byte) :
    (flagByte (notBorrowFlag a b)).toNat = if b.toNat > a.toNat then 0 else 1 := by
  by_cases h : b.toNat > a.toNat <;> simp [flagByte_toNat, notBorrowFlag, h]

theorem lowBitFlag_toNat (a : Byte) : (flagByte (lowBitFlag a)).toNat = a.toNat % 2 := by
  obtain h | h := Nat.mod_two_eq_zero_or_one a.toNat <;>
    simp [flagByte_toNat, lowBitFlag, BitVec.getLsbD, h]

theorem highBitFlag_toNat (a : Byte) : (flagByte (highBitFlag a)).toNat = a.toNat / 128 := by
  have hlt := a.isLt
  obtain h | h : a.toNat / 128 = 0 ∨ a.toNat / 128 = 1 := by omega
  all_goals simp [flagByte_toNat, highBitFlag, BitVec.getLsbD, Nat.testBit_eq_decide_div_mod_eq, h]

theorem sub_toNat (a b : Byte) : (a - b).toNat = (a.toNat + 256 - b.toNat) % 256 := by
  have hb := b.isLt
  rw [BitVec.toNat_sub]
  congr 1
  omega

theorem shiftRight_one_toNat (a : Byte) : (a >>> 1).toNat = a.toNat / 2 := by
  rw [BitVec.toNat_ushiftRight, Nat.shiftRight_eq_div_pow]

theorem shiftLeft_one_toNat (a : Byte) : (a <<< 1).toNat = a.toNat * 2 % 256 := by
  rw [BitVec.toNat_shiftLeft, Nat.shiftLeft_eq]

theorem exec_addReg (x y : Reg) (s : State) : exec (.addReg x y) s =
    .next ((s.writeFlagged x (s.getV x + s.getV y) (carryFlag (s.getV x) (s.getV y))).advance 2) := rfl

theorem exec_subReg (x y : Reg) (s : State) : exec (.subReg x y) s =
    .next ((s.writeFlagged x (s.getV x - s.getV y) (notBorrowFlag (s.getV x) (s.getV y))).advance 2) := rfl

theorem exec_subnReg (x y : Reg) (s : State) : exec (.subnReg x y) s =
    .next ((s.writeFlagged x (s.getV y - s.getV x) (notBorrowFlag (s.getV y) (s.getV x))).advance 2) := rfl

theorem exec_shr (x y : Reg) (s : State) : exec (.shr x y) s =
    .next ((s.writeFlagged x (s.getV x >>> 1) (lowBitFlag (s.getV x))).advance 2) := rfl

theorem exec_shl (x y : Reg) (s : State) : exec (.shl x y) s =
    .next ((s.writeFlagged x (s.getV x <<< 1) (highBitFlag (s.getV x))).advance 2) := rfl

/-- Settles O25: the result written is the 8-bit sum and the flag the carry of the exact one. -/
theorem addSetsCarry : Obligations.AddSetsCarry := fun x y s =>
  ⟨decodeWord_encodeWord (i := .addReg x y) rfl, _, exec_addReg x y s,
    writeFlagged_leaves (BitVec.toNat_add ..) (carryFlag_toNat ..)⟩

/-- Settles O26: the result written is the 8-bit difference and the flag whether no borrow was needed. -/
theorem subSetsNotBorrow : Obligations.SubSetsNotBorrow := fun x y s =>
  ⟨decodeWord_encodeWord (i := .subReg x y) rfl, _, exec_subReg x y s,
    writeFlagged_leaves (sub_toNat ..) (notBorrowFlag_toNat ..)⟩

/-- Settles O27: as for SUB, with the operands the other way round. -/
theorem subnSetsNotBorrow : Obligations.SubnSetsNotBorrow := fun x y s =>
  ⟨_, exec_subnReg x y s, writeFlagged_leaves (sub_toNat ..) (notBorrowFlag_toNat ..)⟩

/-- Settles O28: a shift by one halves or doubles the value, and the flag is the bit at the end it leaves. -/
theorem shiftsCaptureTheBitShiftedOut : Obligations.ShiftsCaptureTheBitShiftedOut := fun x y s =>
  ⟨⟨_, exec_shr x y s, writeFlagged_leaves (shiftRight_one_toNat _) (lowBitFlag_toNat _)⟩,
    ⟨_, exec_shl x y s, writeFlagged_leaves (shiftLeft_one_toNat _) (highBitFlag_toNat _)⟩⟩

/-! ### Skips on registers -/

theorem exec_seReg (x y : Reg) (s : State) :
    exec (.seReg x y) s = .next (s.setPc (if s.getV x = s.getV y then s.pc + 4 else s.pc + 2)) := by
  change execSeReg x y s = _
  simp only [execSeReg, State.skipIf_eq, beq_iff_eq]

theorem exec_sneReg (x y : Reg) (s : State) :
    exec (.sneReg x y) s = .next (s.setPc (if s.getV x ≠ s.getV y then s.pc + 4 else s.pc + 2)) := by
  change execSneReg x y s = _
  simp only [execSneReg, State.skipIf_eq, bne_iff_ne]

/-- Settles O21: both skips only set `pc`, by the comparison of their two registers. -/
theorem registerSkipsCompareAndAdvance : Obligations.RegisterSkipsCompareAndAdvance := fun x y s =>
  ⟨exec_seReg x y s, exec_sneReg x y s⟩

/-! ### Keys and timers -/

theorem exec_skp (x : Reg) (s : State) : exec (.skp x) s = keySkip true x (encodeWord (.skp x)) s := rfl

theorem exec_sknp (x : Reg) (s : State) : exec (.sknp x) s = keySkip false x (encodeWord (.sknp x)) s := rfl

/-- Settles O39: the key that Vx names, by its value or by its low nibble, is looked up in the latch, and the skip
sets `pc` alone. -/
theorem keySkipsReadTheLatch : Obligations.KeySkipsReadTheLatch := by
  intro x k s hk h
  have hkey : keyIndex s.cfg (s.getV x) = some k := nibbleIndex_eq_some hk h
  exact ⟨(exec_skp x s).trans (keySkip_of_key hkey), (exec_sknp x s).trans (keySkip_of_key hkey)⟩

/-- Settles O40: past 0xF the policy `fault` names no key, and the skip only raises. -/
theorem keySkipsFaultPastSixteenKeys : Obligations.KeySkipsFaultPastSixteenKeys := by
  intro x s h hp
  have hkey : keyIndex s.cfg (s.getV x) = none := by
    rw [keyIndex, hp]
    exact nibbleIndex_eq_none h
  exact ⟨(exec_skp x s).trans (keySkip_of_no_key hkey), (exec_sknp x s).trans (keySkip_of_no_key hkey)⟩

/-- Settles O41: the least key that is down is the one found, and where none is found the state is answered as it
was. -/
theorem keyWaitTakesTheLeastKeyOrWaits : Obligations.KeyWaitTakesTheLeastKeyOrWaits := fun _ _ =>
  ⟨fun _ hdown hleast => exec_ldVxK_of_key (leastKeyDown_eq_some.mpr ⟨hdown, hleast⟩),
    fun hup => exec_ldVxK_of_no_key (leastKeyDown_eq_none.mpr hup)⟩

theorem exec_ldVxDt (x : Reg) (s : State) : exec (.ldVxDt x) s = .next ((s.setV x s.dt).advance 2) := rfl

theorem exec_ldDtVx (x : Reg) (s : State) : exec (.ldDtVx x) s = .next ((s.setDT (s.getV x)).advance 2) := rfl

theorem exec_ldStVx (x : Reg) (s : State) : exec (.ldStVx x) s = .next ((s.setST (s.getV x)).advance 2) := rfl

/-- Settles O42: each of the three moves is one write and the advance. -/
theorem timerMovesCopyOneByte : Obligations.TimerMovesCopyOneByte := fun x s =>
  ⟨exec_ldVxDt x s, exec_ldDtVx x s, exec_ldStVx x s⟩

end Sys2Proof.Machine

/-! SUPPORT. Control transfer (41_control_flow.md) and DRW (40_display.md section 2). -/

namespace Sys2Proof.Machine

/-! ### CALL, JP, JP V0 and SYS -/

/-- A push with `j` entries on the stack writes entry `j` and leaves `j + 1` of them. -/
theorem State.push_of_sp_castSucc {s : State} {j : Fin 16} (a : Word) (h : s.sp = j.castSucc) :
    s.push a = some { s with stack := s.stack.set j a, sp := j.succ } := by
  have hj : s.sp.val = j.val := congrArg Fin.val h
  have hlt : s.sp.val < 16 := hj ▸ j.isLt
  unfold State.push
  rw [dif_pos hlt]
  simp only [hj]
  rfl

theorem zextAddr_eq_ofNat (nnn : Addr) : zextAddr nnn = BitVec.ofNat 16 nnn.toNat := by
  have := nnn.isLt
  apply BitVec.eq_of_toNat_eq
  rw [zextAddr_toNat, BitVec.toNat_ofNat]
  omega

/-- Settles O16: below sixteen entries the push writes the next one, and with sixteen it answers nothing, so that
CALL only raises. -/
theorem callPushesOrOverflows : Obligations.CallPushesOrOverflows := by
  refine fun nnn s => ⟨fun j hsp => ?_, fun hsp => ?_⟩
  · rw [exec_call_of_push (State.push_of_sp_castSucc _ hsp), zextAddr_eq_ofNat]
    rfl
  · exact exec_call_of_push_none (State.push_eq_none.mpr hsp)

theorem exec_jp (nnn : Addr) (s : State) : exec (.jp nnn) s = .next (s.setPc (zextAddr nnn)) := rfl

/-- The cycle of a jump to its own address: the target is the `pc` that stood there, so what is left is the start
and the end of the cycle. -/
theorem step_jp_self {nnn : Addr} {s : State} {rest : List Turn} (hc : s.canCycle = true) (hn : s.CyclesNext rest)
    (hf : s.fetch = .ok (encodeWord (.jp nnn))) (hpc : s.pc.toNat = nnn.toNat) :
    step s = .next { s with
      host := rest, key := s.keyBuf, refresh := false
      dt := timerAfterCycle s.cfg.timerMode s.dt
      st := timerAfterCycle s.cfg.timerMode s.st } := by
  have hfault : s.fault = none := (State.canCycle_iff.mp hc).2
  have hself : zextAddr nnn = s.pc := BitVec.eq_of_toNat_eq (by rw [zextAddr_toNat, hpc])
  rw [step_of_decoded_word hc hn hf (decodeWord_encodeWord (i := .jp nnn) rfl) (exec_jp ..), hself,
    endCycle_eq_of_no_refresh (by exact hfault) (by rfl)]
  rfl

/-- Settles O17: JP writes its target to `pc` unchecked, so the check past 0xFFE is the next fetch's. -/
theorem jpJumpsAnywhere : Obligations.JpJumpsAnywhere := by
  refine fun nnn s => ⟨decodeWord_encodeWord (i := .jp nnn) rfl, ?_, ?_, fun rest hc hn hf hpc => ?_⟩
  · rw [exec_jp, zextAddr_eq_ofNat]
    rfl
  · rintro rfl
    exact State.fetch_of_pc_past_end (s := { s with pc := 0xFFF#16 }) (show 0xFFE < (0xFFF#16).toNat by decide)
  · exact step_jp_self hc hn hf hpc

theorem exec_jpV0 (nnn : Addr) (s : State) :
    exec (.jpV0 nnn) s = .next (s.setPc (offsetTarget nnn (s.getV 0))) := rfl

/-- Settles O18: the sum of twelve and of eight bits does not pass sixteen bits. -/
theorem jpV0AddsV0Unreduced : Obligations.JpV0AddsV0Unreduced := fun nnn s =>
  ⟨_, exec_jpV0 nnn s, rfl, offsetTarget_toNat nnn (s.getV 0)⟩

/-- Settles O19: SYS is handled as an UNKNOWN word, by the policy. -/
theorem sysRunsAsUnknownOpcode : Obligations.SysRunsAsUnknownOpcode := fun _ _ =>
  ⟨fun hp => unknownWord_of_skip hp, fun hp => unknownWord_of_halt hp⟩

/-! ### The cells of a sprite -/

/-- Two pixels of one sprite that land in the same cell are the same pixel (R123): their cell numbers differ by less
than the 2048 cells. -/
theorem eq_of_cellAt_eq {px py r c r' c' : Nat} (hr : r ≤ 14) (hr' : r' ≤ 14) (hc : c ≤ 7) (hc' : c' ≤ 7)
    (h : cellAt (px + c) (py + r) = cellAt (px + c') (py + r')) : r = r' ∧ c = c' := by
  have hcell : ((py + r) * 64 + (px + c)) % 2048 = ((py + r') * 64 + (px + c')) % 2048 := congrArg Fin.val h
  omega

/-- Settles O14: a sprite's fifteen rows of eight pixels are too few to wrap onto each other. -/
theorem spritePixelsLandInDistinctCells : Obligations.SpritePixelsLandInDistinctCells :=
  fun _ _ _ _ _ _ hr hr' hc hc' h => eq_of_cellAt_eq hr hr' hc hc' h

theorem rowCells_nodup (px py : Nat) (row : Byte) : (rowCells px py row).Nodup := by
  refine List.Nodup.map_on (fun c hc c' hc' h => ?_) (List.nodup_range.filter _)
  have hc : c < 8 := List.mem_range.mp (List.mem_of_mem_filter hc)
  have hc' : c' < 8 := List.mem_range.mp (List.mem_of_mem_filter hc')
  exact (eq_of_cellAt_eq (r := 0) (r' := 0) (by omega) (by omega) (by omega) (by omega) h).2

theorem mem_rowCells {px py : Nat} {row : Byte} {k : FbCell} (h : k ∈ rowCells px py row) :
    ∃ c, c < 8 ∧ k = cellAt (px + c) py := by
  obtain ⟨c, hc, rfl⟩ := List.mem_map.mp h
  exact ⟨c, List.mem_range.mp (List.mem_of_mem_filter hc), rfl⟩

/-- A sprite of at most fifteen rows plots each cell once. -/
theorem spriteCells_nodup {px py : Nat} {rows : List Byte} (hlen : rows.length ≤ 15) :
    (spriteCells px py rows).Nodup := by
  induction rows generalizing py with
  | nil => exact List.nodup_nil
  | cons row rows ih =>
    rw [List.length_cons] at hlen
    refine List.Nodup.append (rowCells_nodup ..) (ih (by omega)) fun k hrow hrest => ?_
    obtain ⟨c, hc, rfl⟩ := mem_rowCells hrow
    obtain ⟨r, c', hr, hc', -, hcell⟩ := mem_spriteCells.mp hrest
    rw [Nat.add_assoc] at hcell
    obtain ⟨hzero, -⟩ := eq_of_cellAt_eq (r := 0) (by omega) (by omega) (by omega) (by omega) hcell
    omega

/-- The cells that DRW plots, each once. -/
def State.plotted (s : State) (x y : Reg) (n : Fin 16) : List FbCell :=
  spriteCells (s.getV x).toNat (s.getV y).toNat (s.peekBytes s.i.toNat n.val)

theorem State.plotted_nodup (s : State) (x y : Reg) (n : Fin 16) : (s.plotted x y n).Nodup := by
  have hlen : (s.peekBytes s.i.toNat n.val).length = n.val := memReadBytes_length
  exact spriteCells_nodup (by omega)

theorem State.mem_plotted {s : State} {x y : Reg} {n : Fin 16} {k : FbCell} :
    k ∈ s.plotted x y n ↔ SpriteLights s x y n k := mem_spriteCells_iff_lights

theorem State.drawSprite_eq (s : State) (x y : Reg) (n : Fin 16) :
    s.drawSprite x y n = plotAll (s.fb, false) (s.plotted x y n) := drawRows_eq ..

theorem pixelAt_drawSprite (s : State) (x y : Reg) (n : Fin 16) (k : FbCell) :
    pixelAt (s.drawSprite x y n).1 k = (pixelAt s.fb k != decide (k ∈ s.plotted x y n)) := by
  rw [State.drawSprite_eq, pixelAt_plotAll (s.plotted_nodup x y n)]

theorem collision_drawSprite (s : State) (x y : Reg) (n : Fin 16) :
    (s.drawSprite x y n).2 = true ↔ ∃ k, SpriteLights s x y n k ∧ pixelAt s.fb k = true := by
  rw [State.drawSprite_eq, collision_plotAll (s.plotted_nodup x y n), Bool.false_or, List.any_eq_true]
  exact exists_congr fun k => and_congr_left fun _ => State.mem_plotted

/-! ### DRW -/

theorem exec_drw_of_readable {x y : Reg} {n : Fin 16} {s : State} (h : n = 0 ∨ s.i.toNat + n.val ≤ 4096) :
    exec (.drw x y n) s = .next
      (((s.setFb (s.drawSprite x y n).1).setV regF (flagByte (s.drawSprite x y n).2)).requestRefresh.advance 2) := by
  have hchecks : firstFailure checkRead s.i.toNat n.val = none :=
    firstFailure_checkRead_none (h.imp_left (congrArg Fin.val))
  change execDrw x y n s = _
  rw [execDrw, hchecks]
  rfl

/-- Settles O13: the cells plotted are those that set pixels reach, each plotted once, so each of them is flipped, and
the flag says whether one of them was on. -/
theorem drwXorsSpriteAndReportsCollision : Obligations.DrwXorsSpriteAndReportsCollision := by
  intro x y n s h
  refine ⟨_, exec_drw_of_readable h, rfl, fun k hk => ?_, fun k hk => ?_, fun r hr => ?_, fun hcol => ?_,
    fun hcol => ?_⟩
  · refine (pixelAt_drawSprite s x y n k).trans ?_
    simp [State.mem_plotted.mpr hk]
  · refine (pixelAt_drawSprite s x y n k).trans ?_
    simp [mt State.mem_plotted.mp hk]
  · exact State.setV_getV_ne _ _ hr
  · refine (State.setV_getV_self _ regF _).trans ?_
    rw [(collision_drawSprite s x y n).mpr hcol]
    rfl
  · refine (State.setV_getV_self _ regF _).trans ?_
    rw [Bool.eq_false_iff.mpr (mt (collision_drawSprite s x y n).mp hcol)]
    rfl

end Sys2Proof.Machine

/-! SUPPORT. The address register and memory (44_index_memory.md): an instruction that moves bytes checks all its
addresses first, and has its effect or the fault of the first address that failed. -/

namespace Sys2Proof.Machine

/-! ### ADD I and LD F -/

theorem exec_addI (x : Reg) (s : State) :
    exec (.addI x) s = .next ((s.setI (s.i + (s.getV x).setWidth 16)).advance 2) := rfl

/-- Settles O31: the sum is one of 16-bit words, the register's byte zero-extended. -/
theorem addIWrapsAt16Bits : Obligations.AddIWrapsAt16Bits := by
  refine fun x s => ⟨_, exec_addI x s, rfl, ?_⟩
  have := (s.getV x).isLt
  rw [State.advance_i, State.setI_i, BitVec.toNat_add, BitVec.toNat_setWidth]
  omega

theorem exec_ldF_of_index {x : Reg} {s : State} {d : Fin 16} (hd : d.val = (s.getV x).toNat % 16)
    (h : (s.getV x).toNat ≤ 15 ∨ s.cfg.fontIndex = .lowNibble) :
    exec (.ldF x) s = .next { s with i := BitVec.ofNat 16 (5 * d.val), pc := s.pc + 2 } :=
  exec_ldF_of_glyph (nibbleIndex_eq_some hd h)

/-- Settles O32: a digit names itself, past 0xF the policy names the low nibble or no glyph, and then LD F only
raises. -/
theorem ldFPointsAtTheGlyph : Obligations.LdFPointsAtTheGlyph := by
  refine fun x s => ⟨fun h => ?_, fun _ hp => ?_, fun h hp => ?_⟩
  · exact exec_ldF_of_index (d := ⟨(s.getV x).toNat, by omega⟩) (by simp only; omega) (.inl h)
  · exact exec_ldF_of_index (d := ⟨(s.getV x).toNat % 16, by omega⟩) rfl (.inr hp)
  · refine exec_ldF_of_no_glyph ?_
    rw [glyphIndex, hp]
    exact nibbleIndex_eq_none h

/-! ### Moves of bytes whose addresses all pass the check -/

theorem State.iAfter_toNat {s : State} {x : Reg} (h : s.i.toNat + x.val ≤ 0xFFF) :
    (s.iAfter x).toNat = s.i.toNat + x.val + 1 := by
  rw [State.iAfter, BitVec.toNat_ofNat]
  omega

theorem exec_ldB_of_writable {x : Reg} {s : State} (h : s.i.toNat + 2 ≤ 0xFFF)
    (hfont : 0x04F < s.i.toNat ∨ s.cfg.fontWrite = .write) :
    exec (.ldB x) s = .next ((s.pokeBytes s.i.toNat (bcdDigits (s.getV x))).advance 2) := by
  have hchecks : firstFailure (checkWrite s.cfg) s.i.toNat 3 = none :=
    firstFailure_checkWrite_none (by omega) hfont
  change execLdB x s = _
  rw [execLdB, hchecks]
  rfl

theorem exec_storeRegs_of_writable {x : Reg} {s : State} (h : s.i.toNat + x.val ≤ 0xFFF)
    (hfont : 0x04F < s.i.toNat ∨ s.cfg.fontWrite = .write) :
    exec (.storeRegs x) s =
      .next (((s.pokeBytes s.i.toNat (s.firstRegs x)).setI (s.iAfter x)).advance 2) := by
  have hchecks : firstFailure (checkWrite s.cfg) s.i.toNat (x.val + 1) = none :=
    firstFailure_checkWrite_none (by omega) hfont
  change execStoreRegs x s = _
  rw [execStoreRegs, hchecks]
  rfl

theorem exec_loadRegs_of_readable {x : Reg} {s : State} (h : s.i.toNat + x.val ≤ 0xFFF) :
    exec (.loadRegs x) s = .next { s with
      v := vLoad s.v 0 (s.peekBytes s.i.toNat (x.val + 1)), i := s.iAfter x, pc := s.pc + 2 } := by
  have hchecks : firstFailure checkRead s.i.toNat (x.val + 1) = none :=
    firstFailure_checkRead_none (.inr (by omega))
  change execLoadRegs x s = _
  rw [execLoadRegs, hchecks]
  rfl

theorem bcdDigit_toNat {d : Nat} (h : d < 256) : (BitVec.ofNat 8 d).toNat = d := by
  rw [BitVec.toNat_ofNat, Nat.mod_eq_of_lt h]

/-- Settles O33: the three bytes stored are the digits, each below 256, and no other byte is written. -/
theorem ldBStoresDecimalDigits : Obligations.LdBStoresDecimalDigits := by
  intro x s hwf hlen hfont
  have hb := (s.getV x).isLt
  have hread : ∀ k (hk : k < (bcdDigits (s.getV x)).length),
      (s.pokeBytes s.i.toNat (bcdDigits (s.getV x))).peek (s.i.toNat + k) = (bcdDigits (s.getV x))[k] :=
    fun k hk => State.peek_pokeBytes_inside hwf (by rw [bcdDigits_length]; omega) hk
  refine ⟨_, exec_ldB_of_writable hlen hfont, rfl, ?_, ?_, ?_, fun a ha => ?_⟩
  · exact (congrArg BitVec.toNat (hread 0 (by simp))).trans (bcdDigit_toNat (by omega))
  · exact (congrArg BitVec.toNat (hread 1 (by simp))).trans (bcdDigit_toNat (by omega))
  · exact (congrArg BitVec.toNat (hread 2 (by simp))).trans (bcdDigit_toNat (by omega))
  · exact State.peek_pokeBytes_outside s ha

/-- After LD [I], Vx has stored, each of its addresses reads as its register. -/
theorem State.peek_pokeBytes_firstRegs {s : State} {x r : Reg} (hwf : s.mem.wf s.cfg.font = true)
    (h : s.i.toNat + x.val ≤ 0xFFF) (hr : r ≤ x) :
    (s.pokeBytes s.i.toNat (s.firstRegs x)).peek (s.i.toNat + r.val) = s.getV r := by
  have hlen := s.firstRegs_length x
  have hrx : r.val ≤ x.val := hr
  rw [State.peek_pokeBytes_inside hwf (by omega) (by omega), State.firstRegs_getElem s x r hr]

/-- Settles O34: the bytes stored are V0 to Vx, and no other byte is written. -/
theorem storeRegsStoresV0ToVx : Obligations.StoreRegsStoresV0ToVx := by
  intro x s hwf hlen hfont
  refine ⟨_, exec_storeRegs_of_writable hlen hfont, rfl, State.iAfter_toNat hlen, fun r hr => ?_, fun a ha => ?_⟩
  · exact State.peek_pokeBytes_firstRegs hwf hlen hr
  · exact State.peek_pokeBytes_outside s (by rw [State.firstRegs_length]; omega)

/-- Settles O35: the bytes read replace V0 to Vx, and the registers past Vx are none of them. -/
theorem loadRegsLoadsV0ToVx : Obligations.LoadRegsLoadsV0ToVx := by
  intro x s hlen
  refine ⟨_, exec_loadRegs_of_readable hlen, rfl, State.iAfter_toNat hlen, fun r hr => ?_, fun r hr => ?_⟩
  · exact (vLoad_peekBytes s x r).trans (if_pos hr)
  · exact (vLoad_peekBytes s x r).trans (if_neg (not_le.mpr hr))

/-- Settles O38: the next `pc` is where the store began, so the word fetched there is the first two registers. -/
theorem storedWordIsFetchedNext : Obligations.StoredWordIsFetchedNext := by
  intro x s hwf hx hi hlen hfont
  have hv0 := State.peek_pokeBytes_firstRegs (r := 0) hwf hlen (Fin.zero_le x)
  have hv1 := State.peek_pokeBytes_firstRegs (r := 1) hwf hlen hx
  refine ⟨_, exec_storeRegs_of_writable hlen hfont, ?_⟩
  have hpc : (((s.pokeBytes s.i.toNat (s.firstRegs x)).setI (s.iAfter x)).advance 2).pc = s.i := hi.symm
  rw [State.fetch_of_pc_lt (by rw [hpc]; omega), hpc]
  exact congrArg Except.ok (congrArg₂ joinBytes hv0 hv1)

/-! ### Moves of bytes with an address that fails its check -/

theorem State.ifChecked_of_failure {s effect : State} {w : Word} {failure : Option (FaultKind × Nat)}
    {kind : FaultKind} {a : Nat} (h : failure = some (kind, a)) :
    s.ifChecked w failure effect = .next (s.afterFault ⟨kind, s.pc, some w, some a⟩) := by
  rw [h]
  rfl

/-- Settles O36: the first address past 0xFFF is the one whose check fails, and the fault leaves the rest. -/
theorem readsPastTheTopFault : Obligations.ReadsPastTheTopFault := by
  refine fun x y n s => ⟨fun h => ?_, fun hn h => ?_⟩
  · exact State.ifChecked_of_failure (firstFailure_checkRead_some (by omega) (by omega))
  · exact State.ifChecked_of_failure (firstFailure_checkRead_some (Fin.val_ne_of_ne hn) h)

/-- Settles O37: past the top of memory the bounds check fails first at 0x1000 or at `I`, and in a protected font it
is the font check that fails, at `I`. -/
theorem storesOutsideWritableMemoryFault : Obligations.StoresOutsideWritableMemoryFault := by
  refine fun x s => ⟨fun h => ?_, fun h hp => ?_, fun h => ?_, fun h hp => ?_⟩
  · exact State.ifChecked_of_failure (firstFailure_checkWrite_top (by omega) (by omega) (by omega))
  · exact State.ifChecked_of_failure (firstFailure_checkWrite_font (by omega) h hp)
  · exact State.ifChecked_of_failure (firstFailure_checkWrite_top (by omega) (by omega) (by omega))
  · exact State.ifChecked_of_failure (firstFailure_checkWrite_font (by omega) h hp)

end Sys2Proof.Machine

/-! SUPPORT. Words written out from the map (30_encoding.md section 3). -/

namespace Sys2Proof

/-- Settles O4: each word written out is the encoding of its instruction, and 912F has no arm. -/
theorem writtenOutWordsDecode : Obligations.WrittenOutWordsDecode :=
  ⟨decodeUndoesEncode .cls [] rfl, decodeUndoesEncode (.call 0x20C#12) [] rfl,
    decodeUndoesEncode (.seImm 10 0x08#8) [] rfl, decodeUndoesEncode (.subReg 1 2) [] rfl,
    decodeUndoesEncode (.drw 1 2 5) [] rfl, decodeUndoesEncode (.loadRegs 2) [] rfl,
    decodeUndoesEncode (.skp 5) [] rfl, rfl⟩

end Sys2Proof
